-- ==== Sys2Proof/Word.lean ====
section
/-! DEFINITION. The word types of the engine (00_scope.md R5, R8) and the names of its byte registers (10_state.md R15, R16). -/

namespace Sys2Proof

/-- A byte: a register's value, a memory byte, a port number (R5, D9). -/
abbrev Byte := BitVec 8

/-- A 16-bit address; its addition wraps modulo 65536, as the pc and the sp do (R5, R9). -/
abbrev Addr := BitVec 16

/-- The six byte registers: the accumulator and the five general registers (R15, R16).
The names C, D, E, H are the spec's own (D2; log 16). -/
inductive Reg where
  | A | B | C | D | E | H
deriving DecidableEq, Repr

end Sys2Proof
end

