-- ==== Sys2Proof/Config.lean ====
section
/-! DEFINITION. What the implementation fixes and what the spec leaves OPEN without a value (00_scope.md R6).
Each is an opaque constant: nothing in Lean can prove what it is, so a claim holds whatever it is. -/

namespace Sys2Proof

/-- `WIRED_PORT`: the number of the one wired port of the reference configuration (20_memory.md R48, D10: OPEN; log 4). -/
opaque Config.wiredPort : Byte

/-- `unimpl_cycles`: what the step that meets an unimplemented opcode returns (60_exceptions.md R81, D12: OPEN; log 7). -/
opaque Config.unimplCycles : Nat

/-- `status_draw`, the m1 signal: the free value of the n-th draw (10_state.md R29, D7: OPEN; log 6). -/
opaque Config.drawM1 : Nat → Bool

/-- `status_draw`, the mem-read signal: the free value of the n-th draw (10_state.md R29, D7: OPEN; log 6). -/
opaque Config.drawMemr : Nat → Bool

/-- `status_draw`, the wait signal: the free value of the n-th draw (10_state.md R29, D7: OPEN; log 6). -/
opaque Config.drawWait : Nat → Bool

end Sys2Proof
end

