-- ==== Sys2Proof/Machine/State.lean ====
section
/-! DEFINITION. The state of the engine and its environment (10_state.md R32), the reasons a step can stop, and the state after reset. -/

namespace Sys2Proof.Machine

/-- The register file: the accumulator and the five general registers, 8 bits each (10_state.md R15, R16). -/
structure Regs where
  a : Byte
  b : Byte
  c : Byte
  d : Byte
  e : Byte
  h : Byte
deriving DecidableEq, Repr

/-- The four flags (10_state.md R21). There is no auxiliary carry: "This spec does not make it state" (R22). -/
structure Flags where
  z : Bool
  s : Bool
  p : Bool
  cy : Bool
deriving DecidableEq, Repr

/-- The seven status bits (10_state.md R24): `input` and `output` are `sig_input` and `sig_output` (R27, R28); `m1`, `memr` and `wait` are
the drawn signals (R29). -/
structure Status where
  halted : Bool
  inte : Bool
  input : Bool
  output : Bool
  m1 : Bool
  memr : Bool
  wait : Bool
deriving DecidableEq, Repr

/-- A wired port: its number, its input FIFO and its output sink, oldest byte first (20_memory.md R45, R46; 00_scope.md R6 `ports`). -/
structure Port where
  num : Byte
  fifo : List Byte
  sink : List Byte
deriving DecidableEq, Repr

/-- The port space: the wired ports, by rising number; a port that is not listed is unwired (20_memory.md R44, R48). -/
abbrev Ports := List Port

/-- Memory: (address, byte) pairs in one canonical form (`Memory.wf`); 65536 bytes (20_memory.md R34). -/
abbrev Memory := List Host.Cell

/-- An unimplemented-opcode report: the opcode byte and its address (60_exceptions.md R81, D13; log 11). -/
structure Report where
  opcode : Byte
  address : Addr
deriving DecidableEq, Repr

/-- The OPEN parameter `reset_regs` (10_state.md R33, D4). -/
structure ResetRegs where
  regs : Regs
  sp : Addr
  flags : Flags
deriving DecidableEq, Repr

/-- Everything the spec gives the machine (10_state.md R32), its environment (memory, ports, report log), and two fields of the model's own. -/
structure State where
  regs : Regs
  pc : Addr
  sp : Addr
  flags : Flags
  status : Status
  mem : Memory
  ports : Ports
  /-- the report log, oldest first (60_exceptions.md R82) -/
  log : List Report
  /-- the MODEL's own: the number the latest step returned (00_scope.md R13; log 5) -/
  ret : Nat
  /-- the MODEL's own: how many status draws were made (10_state.md R29; log 6) -/
  draws : Nat
deriving DecidableEq, Repr

/-- Faults. There is none: the one exceptional condition is the fail-stop, "not a propagated fault" (60_exceptions.md R80, R81), which is a
next state (log 20). -/
inductive Fault
deriving DecidableEq, Repr

/-- Refusals. -/
inductive Refusal where
  /-- Raised by an arm of `exec` for an instruction without a meaning; no arm raises it. Safe. -/
  | notModelled (mnemonic : String)
deriving DecidableEq, Repr

/-- `reset_regs` with every field zero: D4's suggestion "for deterministic tests" (DESIGN CHOICE, unsafe; log 2). -/
def ResetRegs.zero : ResetRegs :=
  { regs := { a := 0, b := 0, c := 0, d := 0, e := 0, h := 0 }
    sp := 0
    flags := { z := false, s := false, p := false, cy := false } }

/-- A new machine: the reset state of 70_reset_and_hazards.md R96 with the OPEN parameters as arguments (`reset_regs`, `init_mem`, `ports`);
power-on "is the same reset" (R95). The first status draw is draw 0. -/
def State.powerOn (r : ResetRegs) (initMem : Memory) (ports : Ports) : State :=
  { regs := r.regs
    pc := 0x0000
    sp := r.sp
    flags := r.flags
    status :=
      { halted := false, inte := false, input := false, output := false
        m1 := Config.drawM1 0, memr := Config.drawMemr 0, wait := Config.drawWait 0 }
    mem := initMem
    ports := ports
    log := []
    ret := 0
    draws := 1 }

/-- The machine right after reset, nothing loaded, in the reference port configuration (20_memory.md R48; logs 2, 3, 4, 5, 6). -/
def State.reset : State :=
  State.powerOn ResetRegs.zero [] [{ num := Config.wiredPort, fifo := [], sink := [] }]

end Sys2Proof.Machine
end

