-- ==== Sys2Proof/Machine/Flags.lean ====
section
/-! DEFINITION. The flag update (42_arithmetic.md R72 to R76). -/

namespace Sys2Proof.Machine

/-- `popcount(v)`: the number of 1 bits of a byte (00_scope.md R8). -/
def popcount (v : Byte) : Nat := (List.range 8).countP (fun k => v.getLsbD k)

/-- `SetFlags(t)`: the four flags of the untruncated result `t`; the zero, sign and parity flags are of the 8-bit result, the carry of the
sum before truncation (42_arithmetic.md R72, R73, R74, R75, R76; log 8). -/
def flagsOf (t : Nat) : Flags :=
  let r : Byte := BitVec.ofNat 8 t
  { z := decide (r = 0)
    s := r.getLsbD 7
    p := decide (popcount r % 2 = 0)
    cy := decide (t > 255) }

end Sys2Proof.Machine
end

