-- ==== Sys2Proof/Syntax.lean ====
section
/-! DEFINITION. The instructions: the closed set of seven (30_encoding.md R55), one constructor per row of opcode_table.json. -/

namespace Sys2Proof

/-- An instruction with its operand assembled (30_encoding.md R59). No operand names a register or a mode (R54, R58). -/
inductive Instr where
  /-- NOP (40_control.md R67) -/
  | nop
  /-- HLT (40_control.md R68) -/
  | hlt
  /-- JMP a16, an absolute target (40_control.md R69) -/
  | jmp (target : Addr)
  /-- MVI A,d8 (41_data_transfer.md R70) -/
  | mviA (d : Byte)
  /-- ADD B (42_arithmetic.md R71) -/
  | addB
  /-- OUT p8, a port number (43_io.md R78) -/
  | out (p : Byte)
  /-- IN p8, a port number (43_io.md R79) -/
  | inp (p : Byte)
deriving DecidableEq, Repr

end Sys2Proof
end

