-- ==== Sys2Proof/WellFormed.lean ====
section
/-! DEFINITION. Which terms are well formed: an instruction (30_encoding.md R66) and a line of assembler source (R64, R65). -/

namespace Sys2Proof

/-- "Every operand value an instruction can carry is legal" (30_encoding.md R66): the operands' types are their whole range,
so no instruction is refused. -/
def Instr.wellFormed : Instr → Bool
  | .nop => true
  | .hlt => true
  | .jmp _ => true
  | .mviA _ => true
  | .addB => true
  | .out _ => true
  | .inp _ => true

/-- A line of assembler source: the spellings of 30_encoding.md R64 and the two directives of R65.
Numbers and registers are as written, so a line can be ill formed; a label stands as its number (log 19). -/
inductive AsmStmt where
  | nop
  | hlt
  | jmp (target : Nat)
  | mvi (r : Reg) (d : Nat)
  | add (r : Reg)
  | out (p : Nat)
  | inp (p : Nat)
  /-- ORG: the address of the next byte (R65) -/
  | org (addr : Nat)
  /-- DB: literal bytes (R65) -/
  | db (bytes : List Nat)
deriving DecidableEq, Repr

/-- The checks of 30_encoding.md R64: an 8-bit value, a 16-bit address, "Only `A` is accepted as the MVI destination and only `B` as the
ADD source. Other register spellings name no instruction in this set." -/
def AsmStmt.wellFormed : AsmStmt → Bool
  | .nop => true
  | .hlt => true
  | .jmp t => decide (t < 65536)
  | .mvi r d => decide (r = .A) && decide (d < 256)
  | .add r => decide (r = .B)
  | .out p => decide (p < 256)
  | .inp p => decide (p < 256)
  | .org a => decide (a < 65536)
  | .db bs => bs.all (fun b => decide (b < 256))

end Sys2Proof
end

