-- ==== Sys2Proof/Decode.lean ====
section
/-! DEFINITION. The decoder, total on any bytes, and after it the encoder (30_encoding.md; opcode_table.json), with the two
numbered-bits views of an instruction the host asks for and the assembler of R64 and R65. -/

namespace Sys2Proof

/-- `hi : lo`, hi * 256 + lo (00_scope.md R8). -/
def hiLo (hi lo : Byte) : Addr := BitVec.ofNat 16 (hi.toNat * 256 + lo.toNat)

/-- `v[7:0]` (00_scope.md R7). -/
def lowByte (v : Addr) : Byte := v.extractLsb' 0 8

/-- `v[15:8]` (00_scope.md R7). -/
def highByte (v : Addr) : Byte := v.extractLsb' 8 8

/-- The three formats (30_encoding.md R54), each with the instruction its operand bytes make (R59). -/
inductive Form where
  /-- F1: the opcode alone -/
  | f1 (i : Instr)
  /-- F2: one operand byte, used unchanged -/
  | f2 (make : Byte → Instr)
  /-- F3: two operand bytes, a little-endian 16-bit address -/
  | f3 (make : Addr → Instr)

/-- Length in bytes of a format (30_encoding.md R54). -/
def Form.length : Form → Nat
  | .f1 _ => 1
  | .f2 _ => 2
  | .f3 _ => 3

/-- The opcode map (30_encoding.md R55). 0xC3 is the source's; the other six bytes are the spec's decision D1 (PRESUMED; log 1). -/
def opcodeTable : List (Byte × Form) :=
  [ (0x00, .f1 .nop),
    (0x76, .f1 .hlt),
    (0xC3, .f3 .jmp),
    (0x3E, .f2 .mviA),
    (0x80, .f1 .addB),
    (0xD3, .f2 .out),
    (0xDB, .f2 .inp) ]

/-- The row of a table whose opcode is the whole byte `op` (30_encoding.md R58). -/
def lookupForm : List (Byte × Form) → Byte → Option Form
  | [], _ => none
  | (b, f) :: rows, op => if op = b then some f else lookupForm rows op

/-- The format of an opcode; `none` for the 249 unimplemented bytes (30_encoding.md R61, R62). -/
def formOf (op : Byte) : Option Form := lookupForm opcodeTable op

/-- "A decoder finds the length from the opcode alone"; an unimplemented opcode consumes 1 byte (30_encoding.md R60). -/
def opcodeLength (op : Byte) : Nat :=
  match formOf op with
  | some f => f.length
  | none => 1

/-- Why bytes are no instruction. -/
inductive DecodeError where
  /-- no byte at all -/
  | empty
  /-- the opcode byte is none of the seven (30_encoding.md R61) -/
  | unimplemented (op : Byte)
  /-- a supported opcode without all its operand bytes; never met by a fetch, which reads `opcodeLength` bytes -/
  | truncated (op : Byte)
deriving DecidableEq, Repr

/-- The operand bytes of a format, assembled (30_encoding.md R59), and the bytes after them. -/
def Form.assemble : Form → List Byte → Option (Instr × List Byte)
  | .f1 i, rest => some (i, rest)
  | .f2 make, d :: rest => some (make d, rest)
  | .f2 _, [] => none
  | .f3 make, lo :: hi :: rest => some (make (hiLo hi lo), rest)
  | .f3 _, [_] => none
  | .f3 _, [] => none

/-- The instruction that some bytes begin with, and the bytes after it (30_encoding.md R53, R55, R60). -/
def decode : List Byte → Except DecodeError (Instr × List Byte)
  | [] => .error .empty
  | op :: rest =>
    match formOf op with
    | none => .error (.unimplemented op)
    | some f =>
      match f.assemble rest with
      | some r => .ok r
      | none => .error (.truncated op)

/-- The opcode byte of an instruction (30_encoding.md R55). -/
def Instr.opcode : Instr → Byte
  | .nop => 0x00
  | .hlt => 0x76
  | .jmp _ => 0xC3
  | .mviA _ => 0x3E
  | .addB => 0x80
  | .out _ => 0xD3
  | .inp _ => 0xDB

/-- The operand bytes of an instruction, JMP's low byte first (30_encoding.md R54, R59). -/
def Instr.operandBytes : Instr → List Byte
  | .nop => []
  | .hlt => []
  | .jmp t => [lowByte t, highByte t]
  | .mviA d => [d]
  | .addB => []
  | .out p => [p]
  | .inp p => [p]

/-- The bytes of an instruction, the opcode at the lowest address (30_encoding.md R53). -/
def encode (i : Instr) : List Byte := i.opcode :: i.operandBytes

/-- Bytes as one number, the first byte in bits 7..0 (opcode_table.json's numbering over byte-sized words). -/
def packBytes : List Byte → Nat
  | [] => 0
  | b :: bs => b.toNat + 256 * packBytes bs

/-- The first `n` bytes of a number, bits 7..0 first. -/
def unpackBytes : Nat → Nat → List Byte
  | 0, _ => []
  | n + 1, w => BitVec.ofNat 8 w :: unpackBytes n (w / 256)

/-- The bytes of the instruction whose bits are `w`: the longest instruction's three, every bit above `nbits` zero. -/
def tableBytes (nbits w : Nat) : List Byte := unpackBytes 3 (w % 2 ^ nbits)

/-- What the decoder reads from an instruction whose bits are `w`, numbered as opcode_table.json numbers them. -/
def decodeTableWord (nbits w : Nat) : Option Instr :=
  match decode (tableBytes nbits w) with
  | .ok (i, _) => some i
  | .error _ => none

/-- The instruction a well-formed line names; none for a directive or an ill-formed line (30_encoding.md R64). -/
def AsmStmt.instr? : AsmStmt → Option Instr
  | .nop => some .nop
  | .hlt => some .hlt
  | .jmp t => if t < 65536 then some (.jmp (BitVec.ofNat 16 t)) else none
  | .mvi .A d => if d < 256 then some (.mviA (BitVec.ofNat 8 d)) else none
  | .mvi .B _ => none
  | .mvi .C _ => none
  | .mvi .D _ => none
  | .mvi .E _ => none
  | .mvi .H _ => none
  | .add .A => none
  | .add .B => some .addB
  | .add .C => none
  | .add .D => none
  | .add .E => none
  | .add .H => none
  | .out p => if p < 256 then some (.out (BitVec.ofNat 8 p)) else none
  | .inp p => if p < 256 then some (.inp (BitVec.ofNat 8 p)) else none
  | .org _ => none
  | .db _ => none

/-- The bytes a line places at the current address (30_encoding.md R64, R65). -/
def AsmStmt.bytes? : AsmStmt → Option (List Byte)
  | .org a => if a < 65536 then some [] else none
  | .db bs => if bs.all (fun b => decide (b < 256)) then some (bs.map (BitVec.ofNat 8)) else none
  | x => x.instr?.map encode

/-- The runs of bytes a program places, each with its base, for `loadProgram` (30_encoding.md R65: ORG sets the address of the next byte). -/
def assemble : Nat → List AsmStmt → Option (List (Nat × List Byte))
  | _, [] => some []
  | cursor, x :: xs => do
    let bs ← x.bytes?
    let here := match x with
      | .org a => a
      | _ => cursor
    let rest ← assemble (here + bs.length) xs
    return (here, bs) :: rest

/-- The line that spells an instruction (30_encoding.md R64). -/
def Instr.toAsm : Instr → AsmStmt
  | .nop => .nop
  | .hlt => .hlt
  | .jmp t => .jmp t.toNat
  | .mviA d => .mvi .A d.toNat
  | .addB => .add .B
  | .out p => .out p.toNat
  | .inp p => .inp p.toNat

/-- A hexadecimal digit. -/
def hexDigit (n : Nat) : Char := ['0', '1', '2', '3', '4', '5', '6', '7', '8', '9', 'A', 'B', 'C', 'D', 'E', 'F'].getD (n % 16) '0'

/-- `k` hexadecimal digits of `n`, the most significant first. -/
def hexDigits : Nat → Nat → List Char
  | 0, _ => []
  | k + 1, n => hexDigits k (n / 16) ++ [hexDigit n]

/-- A number "in hex with suffix `H`" (30_encoding.md R64), a 0 before a leading letter as in 95_test_vectors.md P3's `0C0H`. -/
def hexText (k n : Nat) : List Char :=
  let ds := hexDigits k n
  (if 10 ≤ n / 16 ^ (k - 1) % 16 then '0' :: ds else ds) ++ ['H']

/-- The letter of a register. -/
def Reg.text : Reg → List Char
  | .A => ['A']
  | .B => ['B']
  | .C => ['C']
  | .D => ['D']
  | .E => ['E']
  | .H => ['H']

/-- The characters of a line of assembler source (30_encoding.md R64, R65). -/
def AsmStmt.text : AsmStmt → List Char
  | .nop => ['N', 'O', 'P']
  | .hlt => ['H', 'L', 'T']
  | .jmp t => ['J', 'M', 'P', ' '] ++ hexText 4 t
  | .mvi r d => ['M', 'V', 'I', ' '] ++ r.text ++ [','] ++ hexText 2 d
  | .add r => ['A', 'D', 'D', ' '] ++ r.text
  | .out p => ['O', 'U', 'T', ' '] ++ hexText 2 p
  | .inp p => ['I', 'N', ' '] ++ hexText 2 p
  | .org a => ['O', 'R', 'G', ' '] ++ hexText 4 a
  | .db bs => ['D', 'B', ' '] ++ [','].intercalate (bs.map (hexText 2))

end Sys2Proof
end

