-- ==== Sys2Proof/Machine/Ops.lean ====
section
/-! DEFINITION. The named operations over memory, ports, registers and signals; the fail-stop as one shared operation, and the reset beside it. -/

namespace Sys2Proof.Machine

/-! ## Memory (20_memory.md) -/

/-- What an address that is not listed reads as: `init_mem` is OPEN (R43, D14); 0x00 is a DESIGN CHOICE, unsafe (log 3). -/
def Memory.unlisted : Byte := 0x00

/-- The byte listed at key `k`. -/
def Memory.lookup : Memory → Nat → Byte
  | [], _ => Memory.unlisted
  | (a, v) :: rest, k => if a = k then v else Memory.lookup rest k

/-- The list with `v` at key `k`, in canonical form. -/
def Memory.insert : Memory → Nat → Byte → Memory
  | [], k, v => if v = Memory.unlisted then [] else [(k, v)]
  | (a, w) :: rest, k, v =>
    if k < a then
      if v = Memory.unlisted then (a, w) :: rest else (k, v) :: (a, w) :: rest
    else if a = k then
      if v = Memory.unlisted then rest else (k, v) :: rest
    else (a, w) :: Memory.insert rest k v

/-- `MemRead(addr, 1) = mem[addr mod 65536]` (00_scope.md R10; R35). -/
def Memory.read (m : Memory) (addr : Nat) : Byte := Memory.lookup m (addr % 65536)

/-- `MemWrite(addr, 1, v)`: `mem[addr mod 65536] <- v mod 256` (00_scope.md R10; R35, R36). -/
def Memory.write (m : Memory) (addr v : Nat) : Memory := Memory.insert m (addr % 65536) (BitVec.ofNat 8 v)

/-- `loadProgram(base, bytes)`: each byte wraps independently, in index order (R41, D14). -/
def Memory.load : Memory → Nat → List Nat → Memory
  | m, _, [] => m
  | m, base, b :: bs => Memory.load (Memory.write m base b) (base + 1) bs

/-- `n` bytes at ascending addresses, modulo 65536 (R39, R37). -/
def Memory.readRun (m : Memory) : Addr → Nat → List Byte
  | _, 0 => []
  | a, n + 1 => Memory.read m a.toNat :: Memory.readRun m (a + 1) n

/-- Canonical form from address `lo` up: addresses strictly rising and below 65536, no byte equal to an unlisted one. -/
def Memory.wfFrom : Nat → Memory → Bool
  | _, [] => true
  | lo, (a, v) :: rest => decide (lo ≤ a) && decide (a < 65536) && decide (v ≠ Memory.unlisted) && Memory.wfFrom (a + 1) rest

/-- The canonical form of memory: equal memories are equal lists. -/
def Memory.wf (m : Memory) : Bool := Memory.wfFrom 0 m

/-! ## Ports (20_memory.md R44 to R48) -/

/-- The wired port with number `p`; none when `p` is unwired. -/
def Ports.find : Ports → Byte → Option Port
  | [], _ => none
  | q :: rest, p => if q.num = p then some q else Ports.find rest p

/-- The wired port `p` replaced by its image; an unwired `p` changes nothing. -/
def Ports.modify (ps : Ports) (p : Byte) (f : Port → Port) : Ports := ps.map (fun q => if q.num = p then f q else q)

/-- `v` appended to a port's output sink (R45). -/
def Port.push (v : Byte) (q : Port) : Port := { q with sink := q.sink ++ [v] }

/-- The oldest byte of a port's FIFO removed (R46). -/
def Port.pop (q : Port) : Port := { q with fifo := q.fifo.tail }

/-- The byte the next pop of a port's FIFO gives: the oldest, or 0x00 from an empty FIFO (R46). -/
def Port.front (q : Port) : Byte := q.fifo.headD 0x00

/-- `PortOut(p, v)`: "forwards to the wired sink if the port is wired, else no-op" (R45). -/
def Ports.portOut (ps : Ports) (p v : Byte) : Ports := Ports.modify ps p (Port.push v)

/-- The byte `PortIn(p)` returns: R46 for a wired port, 0x00 for an unwired one (R48, D11; log 10). -/
def Ports.portInByte (ps : Ports) (p : Byte) : Byte :=
  match Ports.find ps p with
  | some q => q.front
  | none => 0x00

/-- The ports after `PortIn(p)`: the byte is removed from a wired port's FIFO (R46); an unwired port changes nothing (R48). -/
def Ports.portInRest (ps : Ports) (p : Byte) : Ports := Ports.modify ps p Port.pop

/-- Canonical form from number `lo` up: numbers strictly rising. -/
def Ports.wfFrom : Nat → Ports → Bool
  | _, [] => true
  | lo, q :: rest => decide (lo ≤ q.num.toNat) && Ports.wfFrom (q.num.toNat + 1) rest

/-- The canonical form of the port space: one entry per wired port, by rising number. -/
def Ports.wf (ps : Ports) : Bool := Ports.wfFrom 0 ps

/-! ## Registers, pc, signals -/

/-- `x[r]` (00_scope.md R9). -/
def State.reg (s : State) : Reg → Byte
  | .A => s.regs.a
  | .B => s.regs.b
  | .C => s.regs.c
  | .D => s.regs.d
  | .E => s.regs.e
  | .H => s.regs.h

/-- `x[A] <- v`: the accumulator is the one byte register an instruction writes (10_state.md R16, R17). -/
def State.setA (s : State) (v : Byte) : State := { s with regs := { s.regs with a := v } }

/-- `pc <- t` (00_scope.md R9). -/
def State.setPc (s : State) (t : Addr) : State := { s with pc := t }

/-- All four flags at once (42_arithmetic.md R72). -/
def State.setFlags (s : State) (f : Flags) : State := { s with flags := f }

/-- The port space replaced by its next value. -/
def State.setPorts (s : State) (ps : Ports) : State := { s with ports := ps }

/-- `halted <- 1` (10_state.md R25). -/
def State.halt (s : State) : State := { s with status := { s.status with halted := true } }

/-- `sig_input <- 1` (10_state.md R27). -/
def State.markInput (s : State) : State := { s with status := { s.status with input := true } }

/-- `sig_output <- 1` (10_state.md R28). -/
def State.markOutput (s : State) : State := { s with status := { s.status with output := true } }

/-- `cycles c`: the step returns `c` (00_scope.md R13; log 5). -/
def State.returns (s : State) (c : Nat) : State := { s with ret := c }

/-- A step taken while `halted = 1`: no state change, and it returns 0 (30_encoding.md R56; log 14). -/
def State.haltedNoOp (s : State) : State := s.returns 0

/-- What the fetch of an opcode changes before the operation: the pc advances at once, the per-step signals clear
(30_encoding.md R57; log 13). -/
def State.fetchOpcode (s : State) : State :=
  { s with pc := s.pc + 1, status := { s.status with input := false, output := false } }

/-- `sig_m1, sig_memr, sig_wait <- status_draw`: the end of every fetching step, and of a reset (30_encoding.md R57; 10_state.md R29;
free values, log 6). -/
def State.drawStatus (s : State) : State :=
  { s with
    status := { s.status with m1 := Config.drawM1 s.draws, memr := Config.drawMemr s.draws, wait := Config.drawWait s.draws }
    draws := s.draws + 1 }

/-! ## The exception and the way out of it -/

/-- `raise Unimplemented(op, a); return unimpl_cycles`, the engine's one exceptional outcome: the report is appended to the log and the
engine halts; nothing is saved, no vector is taken (60_exceptions.md R81, R86; 00_scope.md R12). -/
def State.raiseUnimplemented (s : State) (op : Byte) (a : Addr) : State :=
  { s with log := s.log ++ [{ opcode := op, address := a }], status := { s.status with halted := true }, ret := Config.unimplCycles }

/-- The external reset, the only way out of the fail-stop and of HLT (60_exceptions.md R87): R96's values, the OPEN `reset_regs` as the
argument; memory, ports and log are untouched (70_reset_and_hazards.md R97). -/
def State.hostReset (s : State) (r : ResetRegs) : State :=
  State.drawStatus
    { s with
      regs := r.regs
      pc := 0x0000
      sp := r.sp
      flags := r.flags
      status := { s.status with halted := false, inte := false, input := false, output := false }
      ret := 0 }

/-- The end of a fetching step: the status draw after the operation (30_encoding.md R57); a stop stays a stop. -/
def finishStep : Host.Outcome State Fault Refusal → Host.Outcome State Fault Refusal
  | .next t => .next t.drawStatus
  | .fault f => .fault f
  | .refused r => .refused r

end Sys2Proof.Machine
end

