-- ==== Sys2Proof/Machine/Operands.lean ====
section
/-! DEFINITION. Fetching an instruction's bytes and consuming its operand bytes (30_encoding.md R53, R57, R59, R60). The one addressing
mode is the operand byte in the instruction stream (41_data_transfer.md). -/

namespace Sys2Proof.Machine

/-- The opcode byte the next step fetches (30_encoding.md R57). -/
def State.opcodeAt (s : State) : Byte := Memory.read s.mem s.pc.toNat

/-- The bytes of the instruction at the pc: as many as its opcode says, and for an unimplemented opcode that one byte
(30_encoding.md R60; 60_exceptions.md R81 "no operand byte read"). -/
def State.instrBytes (s : State) : List Byte := Memory.readRun s.mem s.pc (opcodeLength s.opcodeAt)

/-- `pc <- pc + 1` after the read of one operand byte; the byte itself is the instruction's field (30_encoding.md R57; log 21). -/
def State.skipOperand (s : State) : State := s.setPc (s.pc + 1)

end Sys2Proof.Machine
end

