-- ==== Sys2Proof/Machine/Arithmetic.lean ====
section
/-! DEFINITION. The arithmetic instruction ADD B (42_arithmetic.md). -/

namespace Sys2Proof.Machine

/-- The exact sum `x[A] + x[B]`, 0 .. 510 (42_arithmetic.md R71). -/
def State.sumAB (s : State) : Nat := (s.reg .A).toNat + (s.reg .B).toNat

/-- ADD B: `x[A] <- t mod 256; SetFlags(t); cycles 1` for the exact sum t (42_arithmetic.md R71). -/
def execAddB (s : State) : Host.Outcome State Fault Refusal :=
  .next (((s.setA (BitVec.ofNat 8 s.sumAB)).setFlags (flagsOf s.sumAB)).returns 1)

end Sys2Proof.Machine
end

