-- ==== Sys2Proof/Machine/Control.lean ====
section
/-! DEFINITION. The control instructions NOP, HLT, JMP (40_control.md). On entry the pc is already past the opcode (R57). -/

namespace Sys2Proof.Machine

/-- NOP: `cycles 1` (40_control.md R67). -/
def execNop (s : State) : Host.Outcome State Fault Refusal := .next (s.returns 1)

/-- HLT: `halted <- 1; cycles 1` (40_control.md R68). -/
def execHlt (s : State) : Host.Outcome State Fault Refusal := .next (s.halt.returns 1)

/-- JMP: both operand bytes are read, then `pc <- hi : lo; cycles 3` (40_control.md R69). -/
def execJmp (target : Addr) (s : State) : Host.Outcome State Fault Refusal :=
  .next ((s.skipOperand.skipOperand.setPc target).returns 3)

end Sys2Proof.Machine
end

