-- ==== Sys2Proof/Machine/DataTransfer.lean ====
section
/-! DEFINITION. The data transfer instruction MVI A (41_data_transfer.md). -/

namespace Sys2Proof.Machine

/-- MVI A: `x[A] <- d; cycles 2`; no flag is written (41_data_transfer.md R70). -/
def execMviA (d : Byte) (s : State) : Host.Outcome State Fault Refusal :=
  .next ((s.skipOperand.setA d).returns 2)

end Sys2Proof.Machine
end

