-- ==== Sys2Proof/Machine/PortIo.lean ====
section
/-! DEFINITION. The port instructions OUT and IN (43_io.md). The port number is the operand byte (D8; log 9). -/

namespace Sys2Proof.Machine

/-- OUT: `PortOut(p, x[A]); sig_output <- 1; cycles 2`; the signal is set even when p is unwired (43_io.md R78). -/
def execOut (p : Byte) (s : State) : Host.Outcome State Fault Refusal :=
  .next ((s.skipOperand.setPorts (s.ports.portOut p (s.reg .A))).markOutput.returns 2)

/-- IN: `x[A] <- PortIn(p); sig_input <- 1; cycles 2`; no flag is written (43_io.md R79). -/
def execInp (p : Byte) (s : State) : Host.Outcome State Fault Refusal :=
  .next (((s.skipOperand.setPorts (s.ports.portInRest p)).setA (s.ports.portInByte p)).markInput.returns 2)

end Sys2Proof.Machine
end

