-- ==== Sys2Proof/Machine/Dispatch.lean ====
section
/-! DEFINITION. One arm per constructor of Instr (30_encoding.md R55). -/

namespace Sys2Proof.Machine

def exec (i : Instr) (s : State) : Host.Outcome State Fault Refusal :=
  match i with
  | .nop => Sys2Proof.Machine.execNop s
  | .hlt => Sys2Proof.Machine.execHlt s
  | .jmp target => Sys2Proof.Machine.execJmp target s
  | .mviA d => Sys2Proof.Machine.execMviA d s
  | .addB => Sys2Proof.Machine.execAddB s
  | .out p => Sys2Proof.Machine.execOut p s
  | .inp p => Sys2Proof.Machine.execInp p s

end Sys2Proof.Machine
end

