-- ==== Sys2Proof/Machine/Step.lean ====
section
/-! DEFINITION. One call of the engine's step entry point (30_encoding.md R56, R57). -/

namespace Sys2Proof.Machine

/-- `step()`: nothing when halted (R56); else fetch, the operation, the status draw (R57), or the fail-stop (60_exceptions.md R81).
A decode error other than an unimplemented opcode cannot arise from `instrBytes` (`decode_instrBytes`). -/
def step (s : State) : Host.Outcome State Fault Refusal :=
  if s.status.halted then .next s.haltedNoOp
  else
    match decode s.instrBytes with
    | .ok (i, _) => finishStep (exec i s.fetchOpcode)
    | .error _ => finishStep (.next (s.fetchOpcode.raiseUnimplemented s.opcodeAt s.pc))

/-- `s` with the instruction whose bits are `w` stored at the pc, its bits above `nbits` zero, and not halted, so that the next step
fetches and runs it (R56 and R50: a fetch needs halted = 0 and nothing else; log 18). -/
def State.withFetchWord (s : State) (nbits w : Nat) : State :=
  { s with
    mem := Memory.load s.mem s.pc.toNat ((tableBytes nbits w).map BitVec.toNat)
    status := { s.status with halted := false } }

end Sys2Proof.Machine
end

