-- ==== Sys2Proof/Machine/HostOps.lean ====
section
/-! DEFINITION. The host interface (70_reset_and_hazards.md R104): what the host does between steps, and a run as a list of its actions. -/

namespace Sys2Proof.Machine

/-- `write(address, value)` (20_memory.md R35, R36). -/
def State.hostWrite (s : State) (addr value : Nat) : State := { s with mem := s.mem.write addr value }

/-- `loadProgram(base, bytes)` (20_memory.md R41). -/
def State.hostLoadProgram (s : State) (base : Nat) (bytes : List Nat) : State := { s with mem := s.mem.load base bytes }

/-- `read(address)`: no side effect (20_memory.md R42). -/
def State.hostRead (s : State) (addr : Nat) : Byte := s.mem.read addr

/-- Bytes queued on a wired port's FIFO, after those already there (20_memory.md R47); nothing for an unwired port (log 17). -/
def State.hostEnqueue (s : State) (p : Byte) (bytes : List Byte) : State :=
  s.setPorts (s.ports.modify p (fun q => { q with fifo := q.fifo ++ bytes }))

/-- The oldest `n` bytes of a wired port's sink: what the host takes (R104 output row; log 17). -/
def State.hostOutput (s : State) (p : Byte) (n : Nat) : List Byte :=
  match Ports.find s.ports p with
  | some q => q.sink.take n
  | none => []

/-- The sink without the bytes taken (R104 output row; log 17). -/
def State.hostTakeOutput (s : State) (p : Byte) (n : Nat) : State :=
  s.setPorts (s.ports.modify p (fun q => { q with sink := q.sink.drop n }))

/-- The report log, as the host reads it (R104 report log row). -/
def State.hostReports (s : State) : List Report := s.log

/-- What the host reads for display (R104 display row; 60_exceptions.md R93). -/
structure Display where
  regs : Regs
  pc : Addr
  sp : Addr
  flags : Flags
  status : Status
deriving DecidableEq, Repr

/-- Every register, pc, sp, the flags and the status signals (R104 display row). -/
def State.hostDisplay (s : State) : Display :=
  { regs := s.regs, pc := s.pc, sp := s.sp, flags := s.flags, status := s.status }

/-- The host's actions, each between steps (R102, R104). -/
inductive HostAction where
  | step
  | reset (r : ResetRegs)
  | write (addr value : Nat)
  | loadProgram (base : Nat) (bytes : List Nat)
  | read (addr : Nat)
  | enqueue (p : Byte) (bytes : List Byte)
  | takeOutput (p : Byte) (n : Nat)
  | readReports
  | display
deriving DecidableEq, Repr

/-- The state after one action of the host; a read, a look at the log and a display leave it as it is (R104). -/
def hostAct : HostAction → State → Host.Outcome State Fault Refusal
  | .step, s => Sys2Proof.Machine.step s
  | .reset r, s => .next (s.hostReset r)
  | .write a v, s => .next (s.hostWrite a v)
  | .loadProgram base bytes, s => .next (s.hostLoadProgram base bytes)
  | .read _, s => .next s
  | .enqueue p bytes, s => .next (s.hostEnqueue p bytes)
  | .takeOutput p n, s => .next (s.hostTakeOutput p n)
  | .readReports, s => .next s
  | .display, s => .next s

/-- A run: the host's actions one after another (R99, R103). -/
def hostRun : List HostAction → State → Host.Outcome State Fault Refusal
  | [], s => .next s
  | a :: rest, s =>
    match hostAct a s with
    | .next t => hostRun rest t
    | .fault f => .fault f
    | .refused r => .refused r

/-- Whether an action is the external reset. -/
def HostAction.isReset : HostAction → Bool
  | .reset _ => true
  | .step => false
  | .write _ _ => false
  | .loadProgram _ _ => false
  | .read _ => false
  | .enqueue _ _ => false
  | .takeOutput _ _ => false
  | .readReports => false
  | .display => false

end Sys2Proof.Machine
end

