-- ==== Sys2Proof/Safety.lean ====
section
/-! DEFINITION. What claims say of states and runs: the invariant of the machine, what an engine can read, and how a run ends. -/

namespace Sys2Proof.Machine

/-- The seven opcode bytes of the closed supported set (30_encoding.md R55; six of them by D1, log 1). -/
def supportedOpcodes : List Byte := [0x00, 0x76, 0xC3, 0x3E, 0x80, 0xD3, 0xDB]

/-- Status bits that hang together: `inte` is never set (10_state.md R26); no input or output signal stands while halted, "because the step
that set `halted` was not an IN" (R27, R28); one step is not both an IN and an OUT (R27, R28). -/
def Status.legal (x : Status) : Bool :=
  !x.inte && !(x.halted && (x.input || x.output)) && !(x.input && x.output)

/-- The invariant: memory and port space in canonical form, and legal status bits. -/
structure State.Inv (s : State) : Prop where
  mem_wf : s.mem.wf = true
  ports_wf : s.ports.wf = true
  status_legal : s.status.legal = true

/-- The states agree on all that an instruction or a fetch can read or append to: A, B, the pc, `halted`, memory, the ports and the log.
C, D, E, H, SP, the flags, `inte` and the other signals are read by nothing (10_state.md R16, R20, R21, R24). -/
structure AgreeOnRead (s s' : State) : Prop where
  a : s.regs.a = s'.regs.a
  b : s.regs.b = s'.regs.b
  pc : s.pc = s'.pc
  halted : s.status.halted = s'.status.halted
  mem : s.mem = s'.mem
  ports : s.ports = s'.ports
  log : s.log = s'.log

/-- The step from `s` to `t` is where a run has halted: the first that returns with `halted = 1` (70_reset_and_hazards.md R103). -/
def HaltsAt (s t : State) : Prop := step s = .next t ∧ s.status.halted = false ∧ t.status.halted = true

/-- A halt that the report log tells to be a fail-stop (70_reset_and_hazards.md R103). -/
def FailStopsAt (s t : State) : Prop := HaltsAt s t ∧ t.log ≠ s.log

/-- A halt that the report log tells to be an HLT (70_reset_and_hazards.md R103). -/
def DeliberatelyHaltsAt (s t : State) : Prop := HaltsAt s t ∧ t.log = s.log

/-- An operation run `n` times over, stopping at a fault or a refusal. -/
def execTimes (i : Instr) : Nat → State → Host.Outcome State Fault Refusal
  | 0, s => .next s
  | n + 1, s =>
    match exec i s with
    | .next t => execTimes i n t
    | .fault f => .fault f
    | .refused r => .refused r

/-- The numbers of the wired ports: the handler configuration, which nothing changes (20_memory.md R48). -/
def State.wired (s : State) : List Byte := s.ports.map (fun q => q.num)

end Sys2Proof.Machine
end

