-- ==== Sys2Proof/Certificates/Slice0/Obligations.lean ====
section
/-! DEFINITION. The statements for the provers. Each docstring names the rule of spec/ it formalises, or the choice of the model it rests on. -/

open Sys2Proof Sys2Proof.Machine

/-! ## What each operation answers (on entry the pc is already past the opcode, 30_encoding.md R57) -/

/-- NOP (40_control.md R67, the operation alone): it returns 1 and changes nothing. -/
def Obligations.ExecNopOnlyReturnsOne : Prop :=
  ∀ s : State, exec .nop s = .next { s with ret := 1 }

/-- HLT (40_control.md R68, the operation alone): it sets `halted` and returns 1. -/
def Obligations.ExecHltSetsHalted : Prop :=
  ∀ s : State, exec .hlt s = .next { s with status := { s.status with halted := true }, ret := 1 }

/-- JMP (40_control.md R69, the operation alone): the pc becomes the target; it returns 3. -/
def Obligations.ExecJmpSetsPc : Prop :=
  ∀ (target : Addr) (s : State), exec (.jmp target) s = .next { s with pc := target, ret := 3 }

/-- MVI A (41_data_transfer.md R70, the operation alone): A becomes the immediate, the pc passes it, no flag is written; it returns 2. That the
operand is a field of the instruction and exec moves the pc past it is the model's convention (log 21). -/
def Obligations.ExecMviALoadsImmediate : Prop :=
  ∀ (d : Byte) (s : State), exec (.mviA d) s = .next { s with regs := { s.regs with a := d }, pc := s.pc + 1, ret := 2 }

/-- ADD B (42_arithmetic.md R71 to R76, the operation alone): A becomes A + B modulo 256, and the four flags are those of the result and of
the untruncated sum (the carry by the spec's decision D3, log 8); the parity is written here as the complement of the exclusive or of the result's bits. -/
def Obligations.ExecAddBAddsAndSetsFlags : Prop :=
  ∀ s : State,
    let r := s.regs.a + s.regs.b
    exec .addB s =
      .next { s with
        regs := { s.regs with a := r }
        flags :=
          { z := r == 0
            s := r.msb
            p := !(r.getLsbD 0 ^^ r.getLsbD 1 ^^ r.getLsbD 2 ^^ r.getLsbD 3 ^^ r.getLsbD 4 ^^ r.getLsbD 5 ^^ r.getLsbD 6 ^^ r.getLsbD 7)
            cy := decide (255 < s.regs.a.toNat + s.regs.b.toNat) }
        ret := 1 }

/-- `SetFlags(t)`: all four flags from the untruncated result, S being bit 7 of the truncated one; ADD B is its only caller
(42_arithmetic.md R72, R73; the carry by 90_conflicts.md C1). The number of 1 bits is counted as the sum of the bits. -/
def Obligations.FlagUpdate : Prop :=
  (∀ t ≤ 510,
    ((flagsOf t).z = true ↔ t % 256 = 0) ∧ ((flagsOf t).s = true ↔ 128 ≤ t % 256) ∧
    ((flagsOf t).p = true ↔ (((List.range 8).map (fun k => t % 256 / 2 ^ k % 2)).sum) % 2 = 0) ∧
    ((flagsOf t).cy = true ↔ 255 < t)) ∧
  (∀ (i : Instr) (s t : State), exec i s = .next t →
    t.flags = if i = .addB then flagsOf (s.regs.a.toNat + s.regs.b.toNat) else s.flags)

/-- `PortOut(p, v)`: the byte is appended to a wired port's sink, an unwired port changes nothing (20_memory.md R45). -/
def Obligations.PortOutAppendsOrDoesNothing : Prop :=
  ∀ (ps : Ports) (p v : Byte),
    (∀ q, Ports.find ps p = some q → Ports.find (ps.portOut p v) p = some { q with sink := q.sink ++ [v] }) ∧
    (∀ p', p' ≠ p → Ports.find (ps.portOut p v) p' = Ports.find ps p') ∧
    (Ports.find ps p = none → ps.portOut p v = ps)

/-- `PortIn(p)` for a wired port: the oldest queued byte, which is removed, or 0x00 from an empty FIFO (20_memory.md R46). -/
def Obligations.PortInPopsTheOldestByte : Prop :=
  ∀ (ps : Ports) (p : Byte) (q : Port), Ports.find ps p = some q →
    (q.fifo = [] → ps.portInByte p = 0x00 ∧ Ports.find (ps.portInRest p) p = some q) ∧
    (∀ v rest, q.fifo = v :: rest → ps.portInByte p = v ∧ Ports.find (ps.portInRest p) p = some { q with fifo := rest }) ∧
    (∀ p', p' ≠ p → Ports.find (ps.portInRest p) p' = Ports.find ps p')

/-- OUT (43_io.md R78 and 20_memory.md R45, the operation alone): A goes to the end of a wired port's sink, an unwired port changes nothing,
`sig_output` is set in both cases; it returns 2. The operand byte is the spec's decision D8 (log 9). -/
def Obligations.ExecOutAppendsToWiredSink : Prop :=
  ∀ (p : Byte) (s : State), ∃ ps : Ports,
    exec (.out p) s = .next { s with pc := s.pc + 1, ports := ps, status := { s.status with output := true }, ret := 2 } ∧
    (∀ q, Ports.find s.ports p = some q → Ports.find ps p = some { q with sink := q.sink ++ [s.regs.a] }) ∧
    (∀ p', p' ≠ p → Ports.find ps p' = Ports.find s.ports p') ∧
    (Ports.find s.ports p = none → ps = s.ports)

/-- IN (43_io.md R79, 20_memory.md R46 and R48, the operation alone): A becomes the oldest queued byte of a wired port, which is removed, or
0x00 when the FIFO is empty or the port unwired, and then the ports do not change; `sig_input` is set; it returns 2. The operand byte is the
spec's decision D8 (log 9), the unwired port's 0x00 its decision D11 (log 10). -/
def Obligations.ExecInpPopsOldestByte : Prop :=
  ∀ (p : Byte) (s : State), ∃ (v : Byte) (ps : Ports),
    exec (.inp p) s = .next { s with
      regs := { s.regs with a := v }, pc := s.pc + 1, ports := ps, status := { s.status with input := true }, ret := 2 } ∧
    (∀ q w rest, Ports.find s.ports p = some q → q.fifo = w :: rest →
      v = w ∧ Ports.find ps p = some { q with fifo := rest }) ∧
    (∀ q, Ports.find s.ports p = some q → q.fifo = [] → v = 0x00 ∧ Ports.find ps p = some q) ∧
    (∀ p', p' ≠ p → Ports.find ps p' = Ports.find s.ports p') ∧
    (Ports.find s.ports p = none → v = 0x00 ∧ ps = s.ports)

/-- The frame of the operations that reach no port: NOP, HLT, JMP, MVI A, ADD B. The general registers, SP, `inte`, the I/O and the drawn
signals, every byte of memory, the ports and the log are unchanged; A changes by MVI A and ADD B only, the flags by ADD B only,
`halted` by HLT only. -/
def Obligations.FrameOfOperationsWithoutPorts : Prop :=
  ∀ (i : Instr) (s t : State),
    (i = .nop ∨ i = .hlt ∨ (∃ a, i = .jmp a) ∨ (∃ d, i = .mviA d) ∨ i = .addB) → exec i s = .next t →
    (t.regs.b = s.regs.b ∧ t.regs.c = s.regs.c ∧ t.regs.d = s.regs.d ∧ t.regs.e = s.regs.e ∧ t.regs.h = s.regs.h) ∧
    (i ≠ .addB → (∀ d, i ≠ .mviA d) → t.regs.a = s.regs.a) ∧
    t.sp = s.sp ∧
    (i ≠ .addB → t.flags = s.flags) ∧
    (i ≠ .hlt → t.status = s.status) ∧
    { t.status with halted := s.status.halted } = s.status ∧
    (∀ addr, t.mem.read addr = s.mem.read addr) ∧
    t.ports = s.ports ∧ t.log = s.log ∧ t.draws = s.draws

/-- The frame of the port operations OUT and IN: the general registers, SP, the flags, every status bit but the instruction's own I/O signal,
every byte of memory and the log are unchanged; OUT leaves A and every FIFO, IN every sink; ports other than the operand's are
unchanged. -/
def Obligations.FrameOfPortOperations : Prop :=
  ∀ (p : Byte) (s t : State),
    (exec (.out p) s = .next t →
      t.regs = s.regs ∧ t.sp = s.sp ∧ t.flags = s.flags ∧ { t.status with output := s.status.output } = s.status ∧
      (∀ addr, t.mem.read addr = s.mem.read addr) ∧
      t.ports.map (fun q => (q.num, q.fifo)) = s.ports.map (fun q => (q.num, q.fifo)) ∧
      (∀ p', p' ≠ p → Ports.find t.ports p' = Ports.find s.ports p') ∧ t.log = s.log ∧ t.draws = s.draws) ∧
    (exec (.inp p) s = .next t →
      { t.regs with a := s.regs.a } = s.regs ∧ t.sp = s.sp ∧ t.flags = s.flags ∧
      { t.status with input := s.status.input } = s.status ∧
      (∀ addr, t.mem.read addr = s.mem.read addr) ∧
      t.ports.map (fun q => (q.num, q.sink)) = s.ports.map (fun q => (q.num, q.sink)) ∧
      (∀ p', p' ≠ p → Ports.find t.ports p' = Ports.find s.ports p') ∧ t.log = s.log ∧ t.draws = s.draws)

/-! ## The step -/

/-- "A step taken while `halted = 1` does nothing and returns 0" (30_encoding.md R56; that the signals stay too is the spec's decision D19,
log 14). -/
def Obligations.HaltedStepDoesNothing : Prop :=
  ∀ s : State, s.status.halted = true → step s = .next { s with ret := 0 }

/-- A step over bytes that stand at the pc and encode `i` runs `i`: the fetch (pc past the opcode, the I/O signals cleared), then `exec i`,
then the status draw (30_encoding.md section 4; the clearing is the spec's decision D23, log 13, the draws its decision D7, log 6). -/
def Obligations.StepRunsTheDecodedInstruction : Prop :=
  ∀ (s t : State) (i : Instr), s.status.halted = false → Memory.readRun s.mem s.pc (encode i).length = encode i →
    exec i { s with pc := s.pc + 1, status := { s.status with input := false, output := false } } = .next t →
    step s = .next { t with
      status := { t.status with m1 := Config.drawM1 t.draws, memr := Config.drawMemr t.draws, wait := Config.drawWait t.draws }
      draws := t.draws + 1 }

/-- NOP, a whole step (40_control.md R67; the byte is the spec's decision D1, log 1; the signals D23 and D7, logs 13 and 6). -/
def Obligations.StepNop : Prop :=
  ∀ s : State, s.status.halted = false → s.mem.read s.pc.toNat = 0x00 →
    step s = .next { s with
      pc := s.pc + 1
      status :=
        { s.status with
          input := false, output := false
          m1 := Config.drawM1 s.draws, memr := Config.drawMemr s.draws, wait := Config.drawWait s.draws }
      ret := 1
      draws := s.draws + 1 }

/-- HLT, a whole step and everything after it until a reset (40_control.md R68; the byte is the spec's decision D1, log 1; the signals D23 and
D7, logs 13 and 6; what ends a halt D25, log 14). -/
def Obligations.StepHltHaltsUntilReset : Prop :=
  ∀ s : State, s.status.halted = false → s.mem.read s.pc.toNat = 0x76 →
    ∃ t : State, step s = .next t ∧
      t = { s with
        pc := s.pc + 1
        status :=
          { s.status with
            halted := true, input := false, output := false
            m1 := Config.drawM1 s.draws, memr := Config.drawMemr s.draws, wait := Config.drawWait s.draws }
        ret := 1
        draws := s.draws + 1 } ∧
      (∀ n, Sys2Proof.core.run (n + 1) t = .next { t with ret := 0 }) ∧
      (∀ (acts : List HostAction) (u : State), (∀ a ∈ acts, a.isReset = false) → hostRun acts t = .next u →
        step u = .next { u with ret := 0 } ∧ u.pc = s.pc + 1)

/-- JMP, a whole step: the pc becomes the little-endian operand, no register, flag, memory byte or port changes, it returns 3; a jump to
itself loops for ever, returning 3 each step (40_control.md R69; the byte 0xC3 is the source's). -/
def Obligations.StepJmp : Prop :=
  ∀ s : State, s.status.halted = false → s.mem.read s.pc.toNat = 0xC3 →
    ∃ t : State, step s = .next t ∧
      t.pc.toNat = (s.mem.read (s.pc.toNat + 2)).toNat * 256 + (s.mem.read (s.pc.toNat + 1)).toNat ∧ t.ret = 3 ∧
      t.regs = s.regs ∧ t.sp = s.sp ∧ t.flags = s.flags ∧ t.status.halted = false ∧ t.mem = s.mem ∧ t.ports = s.ports ∧ t.log = s.log ∧
      (t.pc = s.pc → ∀ n, ∃ u : State, Sys2Proof.core.run (n + 1) s = .next u ∧
        u.pc = s.pc ∧ u.status.halted = false ∧ u.ret = 3)

/-- MVI A, a whole step (41_data_transfer.md R70; the byte is the spec's decision D1, log 1; the signals D23 and D7, logs 13 and 6). -/
def Obligations.StepMviA : Prop :=
  ∀ s : State, s.status.halted = false → s.mem.read s.pc.toNat = 0x3E →
    step s = .next { s with
      regs := { s.regs with a := s.mem.read (s.pc.toNat + 1) }
      pc := s.pc + 2
      status :=
        { s.status with
          input := false, output := false
          m1 := Config.drawM1 s.draws, memr := Config.drawMemr s.draws, wait := Config.drawWait s.draws }
      ret := 2
      draws := s.draws + 1 }

/-- ADD B, a whole step (42_arithmetic.md R71 to R76): `t` is the exact sum, `r` its low 8 bits; the number of 1 bits of r is counted as the
sum of its bits. The byte is the spec's decision D1 (log 1), the carry D3 (log 8), the signals D23 and D7 (logs 13 and 6). -/
def Obligations.StepAddB : Prop :=
  ∀ s : State, s.status.halted = false → s.mem.read s.pc.toNat = 0x80 →
    ∃ (t : Nat) (r : Byte) (f : Flags),
      t = s.regs.a.toNat + s.regs.b.toNat ∧ r.toNat = t % 256 ∧
      (f.z = true ↔ r.toNat = 0) ∧ (f.s = true ↔ 128 ≤ r.toNat) ∧
      (f.p = true ↔ (((List.range 8).map (fun k => r.toNat / 2 ^ k % 2)).sum) % 2 = 0) ∧ (f.cy = true ↔ 255 < t) ∧
      step s = .next { s with
        regs := { s.regs with a := r }
        pc := s.pc + 1
        flags := f
        status :=
          { s.status with
            input := false, output := false
            m1 := Config.drawM1 s.draws, memr := Config.drawMemr s.draws, wait := Config.drawWait s.draws }
        ret := 1
        draws := s.draws + 1 }

/-- OUT, a whole step (43_io.md R78; 20_memory.md R45). The byte and the operand are the spec's decisions D1 and D8 (logs 1 and 9), the signals
D23 and D7 (logs 13 and 6). -/
def Obligations.StepOut : Prop :=
  ∀ s : State, s.status.halted = false → s.mem.read s.pc.toNat = 0xD3 →
    ∃ (p : Byte) (ps : Ports), p = s.mem.read (s.pc.toNat + 1) ∧
      step s = .next { s with
        pc := s.pc + 2
        ports := ps
        status :=
          { s.status with
            input := false, output := true
            m1 := Config.drawM1 s.draws, memr := Config.drawMemr s.draws, wait := Config.drawWait s.draws }
        ret := 2
        draws := s.draws + 1 } ∧
      (∀ q, Ports.find s.ports p = some q → Ports.find ps p = some { q with sink := q.sink ++ [s.regs.a] }) ∧
      (∀ p', p' ≠ p → Ports.find ps p' = Ports.find s.ports p') ∧
      (Ports.find s.ports p = none → ps = s.ports)

/-- IN, a whole step (43_io.md R79; 20_memory.md R46). The byte, the operand and the unwired port's 0x00 are the spec's decisions D1, D8 and D11
(logs 1, 9 and 10), the signals D23 and D7 (logs 13 and 6). -/
def Obligations.StepIn : Prop :=
  ∀ s : State, s.status.halted = false → s.mem.read s.pc.toNat = 0xDB →
    ∃ (p v : Byte) (ps : Ports), p = s.mem.read (s.pc.toNat + 1) ∧
      step s = .next { s with
        regs := { s.regs with a := v }
        pc := s.pc + 2
        ports := ps
        status :=
          { s.status with
            input := true, output := false
            m1 := Config.drawM1 s.draws, memr := Config.drawMemr s.draws, wait := Config.drawWait s.draws }
        ret := 2
        draws := s.draws + 1 } ∧
      (∀ q w rest, Ports.find s.ports p = some q → q.fifo = w :: rest →
        v = w ∧ Ports.find ps p = some { q with fifo := rest }) ∧
      (∀ q, Ports.find s.ports p = some q → q.fifo = [] → v = 0x00 ∧ Ports.find ps p = some q) ∧
      (∀ p', p' ≠ p → Ports.find ps p' = Ports.find s.ports p') ∧
      (Ports.find s.ports p = none → v = 0x00 ∧ ps = s.ports)

/-- The fail-stop, a whole step (60_exceptions.md R81). The supported bytes are the spec's decision D1 (log 1), the report's content D13
(log 11), the signals D23 and D7 (logs 13 and 6). -/
def Obligations.StepUnimplementedFailStops : Prop :=
  ∀ s : State, s.status.halted = false → s.mem.read s.pc.toNat ∉ supportedOpcodes →
    step s = .next { s with
      pc := s.pc + 1
      status :=
        { s.status with
          halted := true, input := false, output := false
          m1 := Config.drawM1 s.draws, memr := Config.drawMemr s.draws, wait := Config.drawWait s.draws }
      log := s.log ++ [{ opcode := s.mem.read s.pc.toNat, address := s.pc }]
      ret := Config.unimplCycles
      draws := s.draws + 1 }

/-! ## Rules over every step -/

/-- No operation, no step and no action of the host stops with a fault or a refusal: the one exceptional condition is the fail-stop, which is
a next state (60_exceptions.md R80, R82). -/
def Obligations.EverythingCompletes : Prop :=
  (∀ (i : Instr) (s : State), ∃ t, exec i s = .next t) ∧ (∀ s : State, ∃ t, step s = .next t) ∧
  (∀ (acts : List HostAction) (s : State), ∃ t, hostRun acts s = .next t)

/-- The final pc of every step, and its reset value (10_state.md section 2; the bytes, OUT's and IN's length and the reset value are the spec's
decisions D1, D8, D5, logs 1, 9, 12). -/
def Obligations.PcAfterEveryStep : Prop :=
  ∀ s t : State, step s = .next t →
    (t.pc =
      if s.status.halted = true then s.pc
      else if s.mem.read s.pc.toNat = 0xC3 then
        BitVec.ofNat 16 ((s.mem.read (s.pc.toNat + 2)).toNat * 256 + (s.mem.read (s.pc.toNat + 1)).toNat)
      else if s.mem.read s.pc.toNat = 0x3E ∨ s.mem.read s.pc.toNat = 0xD3 ∨ s.mem.read s.pc.toNat = 0xDB then s.pc + 2
      else s.pc + 1) ∧
    ∀ r : ResetRegs, (s.hostReset r).pc = 0x0000

/-- The number every step returns, on which no other state depends (70_reset_and_hazards.md R106). -/
def Obligations.CycleCostTable : Prop :=
  ∀ s t : State, step s = .next t →
    (s.status.halted = true → t.ret = 0) ∧
    (s.status.halted = false →
      t.ret =
        match decode s.instrBytes with
        | .ok (.nop, _) => 1
        | .ok (.hlt, _) => 1
        | .ok (.jmp _, _) => 3
        | .ok (.mviA _, _) => 2
        | .ok (.addB, _) => 1
        | .ok (.out _, _) => 2
        | .ok (.inp _, _) => 2
        | .error _ => Config.unimplCycles) ∧
    ∀ c : Nat, step { s with ret := c } = .next t

/-- The input and output signals: set by IN and OUT for their own step, clear after every other fetching step, unchanged by a halted step,
0 after a reset and where a run halts (10_state.md section 5; 30_encoding.md section 3 for the bytes 0xDB and 0xD3, the spec's decision D1,
log 1; the signals by its decisions D23 and D6, logs 13 and 12). -/
def Obligations.InputAndOutputSignals : Prop :=
  ∀ s t : State, step s = .next t →
    (s.status.halted = true → t.status.input = s.status.input ∧ t.status.output = s.status.output) ∧
    (s.status.halted = false →
      t.status.input = decide (s.mem.read s.pc.toNat = 0xDB) ∧ t.status.output = decide (s.mem.read s.pc.toNat = 0xD3)) ∧
    (s.status.halted = false → t.status.halted = true → t.status.input = false ∧ t.status.output = false) ∧
    (∀ r : ResetRegs, (s.hostReset r).status.input = false ∧ (s.hostReset r).status.output = false)

/-- The m1, mem-read and wait signals hold a fresh draw after every fetching step and after a reset, and no step reads them or the count of
draws: the rest of the next state does not depend on them (10_state.md section 5; the spec's decision D7: free values, log 6). -/
def Obligations.DrawnSignals : Prop :=
  (∀ s t : State, s.status.halted = false → step s = .next t →
    t.status.m1 = Config.drawM1 s.draws ∧ t.status.memr = Config.drawMemr s.draws ∧ t.status.wait = Config.drawWait s.draws ∧
    t.draws = s.draws + 1) ∧
  (∀ (s : State) (r : ResetRegs),
    (s.hostReset r).status.m1 = Config.drawM1 s.draws ∧ (s.hostReset r).status.memr = Config.drawMemr s.draws ∧
    (s.hostReset r).status.wait = Config.drawWait s.draws ∧ (s.hostReset r).draws = s.draws + 1) ∧
  (∀ (s t : State) (b1 b2 b3 : Bool) (n : Nat), step s = .next t →
    ∃ t', step { s with status := { s.status with m1 := b1, memr := b2, wait := b3 }, draws := n } = .next t' ∧
      { t' with status := { t'.status with m1 := t.status.m1, memr := t.status.memr, wait := t.status.wait }, draws := t.draws } = t)

/-- The flags: written by ADD B alone, all four together, from the sum of A and B; read by no instruction; reset to the field of
`reset_regs` (10_state.md section 4; the byte, the carry and the reset value are the spec's decisions D1, D3
and D4, logs 1, 8 and 2). -/
def Obligations.FlagsAreWrittenByAddBAlone : Prop :=
  ∀ s t : State, step s = .next t →
    ((s.status.halted = true ∨ s.mem.read s.pc.toNat ≠ 0x80) →
      t.flags = s.flags ∧ ∀ f : Flags, step { s with flags := f } = .next { t with flags := f }) ∧
    (s.status.halted = false → s.mem.read s.pc.toNat = 0x80 →
      t.flags = flagsOf (s.regs.a.toNat + s.regs.b.toNat) ∧ ∀ f : Flags, step { s with flags := f } = .next t) ∧
    (∀ r : ResetRegs, (s.hostReset r).flags = r.flags) ∧
    (∀ (a : HostAction) (u : State), a.isReset = false → a ≠ .step → hostAct a s = .next u → u.flags = s.flags)

/-- The general registers, SP and `inte` change at a reset only, whatever the host does; a reset gives them `reset_regs` and 0
(10_state.md sections 1, 3, 5; the reset values by the spec's decisions D4 and D6, logs 2 and 12). -/
def Obligations.OnlyResetWritesGeneralRegisters : Prop :=
  ∀ (a : HostAction) (s t : State), hostAct a s = .next t →
    (a.isReset = false →
      t.regs.b = s.regs.b ∧ t.regs.c = s.regs.c ∧ t.regs.d = s.regs.d ∧ t.regs.e = s.regs.e ∧ t.regs.h = s.regs.h ∧
      t.sp = s.sp ∧ t.status.inte = s.status.inte) ∧
    (∀ r : ResetRegs, a = .reset r → t.regs = r.regs ∧ t.sp = r.sp ∧ t.status.inte = false)

/-- No event other than a reset changes the engine's control flow from outside: the host's memory, FIFO, sink, log and display actions leave
every register, the pc, SP, the flags, the status bits and the log unchanged, and no action but a reset wakes a halted engine
(60_exceptions.md R84). -/
def Obligations.OnlyResetActsOnTheEngineFromOutside : Prop :=
  ∀ (a : HostAction) (s t : State), a.isReset = false → hostAct a s = .next t →
    (a ≠ .step → t.hostDisplay = s.hostDisplay ∧ t.log = s.log ∧ (t.mem = s.mem ∨ t.ports = s.ports)) ∧
    (s.status.halted = true → t.status.halted = true ∧ t.pc = s.pc)

/-- The engine never writes memory, and it reads nothing but the opcode and operand bytes at the pc: memories that agree there give the same
step (20_memory.md section 2, a rule the spec marks as derived; the lengths by 30_encoding.md section 5 and decisions D1 and D8, logs 1 and 9). -/
def Obligations.EngineNeverWritesMemory : Prop :=
  ∀ s t : State, step s = .next t →
    t.mem = s.mem ∧
    ∀ m : Memory,
      (∀ k < opcodeLength (s.mem.read s.pc.toNat), m.read (s.pc.toNat + k) = s.mem.read (s.pc.toNat + k)) →
      step { s with mem := m } = .next { t with mem := m }

/-- The log is append-only and no instruction can read it: whatever stands in it, an action adds the same reports and does the same
otherwise (60_exceptions.md R82). -/
def Obligations.ReportLogIsWriteOnly : Prop :=
  ∀ (a : HostAction) (s t : State), hostAct a s = .next t →
    ∃ new : List Report, t.log = s.log ++ new ∧ ∀ l : List Report, hostAct a { s with log := l } = .next { t with log := l ++ new }

/-- A report is made by a step over an unimplemented opcode alone, one report a step, of the opcode byte and its address
(60_exceptions.md sections 1, 3; what a report holds is the spec's decision D13, log 11; the opcode bytes are D1, log 1). -/
def Obligations.ReportsComeFromUnimplementedOpcodes : Prop :=
  ∀ (a : HostAction) (s t : State), hostAct a s = .next t →
    t.log =
      if a = .step ∧ s.status.halted = false ∧ s.mem.read s.pc.toNat ∉ supportedOpcodes then
        s.log ++ [{ opcode := s.mem.read s.pc.toNat, address := s.pc }]
      else s.log

/-- Where a run halts: at an HLT or at an unimplemented opcode, and the report log tells the two apart (70_reset_and_hazards.md section 4; the bytes are the spec's decision D1, log 1). -/
def Obligations.HaltsAreHltOrFailStop : Prop :=
  ∀ s t : State, step s = .next t →
    (HaltsAt s t ↔ DeliberatelyHaltsAt s t ∨ FailStopsAt s t) ∧
    (DeliberatelyHaltsAt s t ↔ s.status.halted = false ∧ s.mem.read s.pc.toNat = 0x76) ∧
    (FailStopsAt s t ↔ s.status.halted = false ∧ s.mem.read s.pc.toNat ∉ supportedOpcodes)

/-- In the halted state every register, flag and status bit, SP, the pc and the log keep their values, whatever the host does, until a
reset; only the host changes memory and the ports; a reset wakes the engine (60_exceptions.md sections 3, 5; the spec's decision D25, log 14). -/
def Obligations.HaltedStateKeepsEverythingUntilReset : Prop :=
  ∀ s : State, s.status.halted = true →
    (∀ (acts : List HostAction) (t : State), (∀ a ∈ acts, a.isReset = false) → hostRun acts s = .next t →
      t.hostDisplay = s.hostDisplay ∧ t.log = s.log ∧ step t = .next { t with ret := 0 }) ∧
    (∀ r : ResetRegs, (s.hostReset r).status.halted = false)

/-- What no instruction reads has no influence: two states that agree on A, B, the pc, `halted`, memory, the ports and the log still agree
on them after any run of the same host actions (10_state.md sections 1 to 5). -/
def Obligations.UnreadStateHasNoInfluence : Prop :=
  ∀ (acts : List HostAction) (s s' t : State), AgreeOnRead s s' → s.ret = s'.ret → hostRun acts s = .next t →
    ∃ t', hostRun acts s' = .next t' ∧ AgreeOnRead t t' ∧ t.ret = t'.ret

/-! ## Ports -/

/-- Only OUT and IN reach the port space, and only the operand's port; the FIFO of a port loses a byte to IN alone, its sink gains one by OUT
alone (20_memory.md section 4; the bytes and the operand are the spec's decisions D1 and D8, logs 1 and 9). -/
def Obligations.OnlyOutAndInReachPorts : Prop :=
  ∀ s t : State, step s = .next t →
    ((s.status.halted = true ∨ (s.mem.read s.pc.toNat ≠ 0xD3 ∧ s.mem.read s.pc.toNat ≠ 0xDB)) → t.ports = s.ports) ∧
    (∀ p q, p ≠ s.mem.read (s.pc.toNat + 1) → Ports.find s.ports p = some q → Ports.find t.ports p = some q) ∧
    (∀ p q, Ports.find s.ports p = some q → ∃ q', Ports.find t.ports p = some q' ∧
      (q'.fifo = q.fifo ∨ (s.mem.read s.pc.toNat = 0xDB ∧ q'.fifo = q.fifo.tail)) ∧
      (q'.sink = q.sink ∨ (s.mem.read s.pc.toNat = 0xD3 ∧ q'.sink = q.sink ++ [s.regs.a])))

/-- Which ports are wired never changes, in any run (20_memory.md section 4). -/
def Obligations.WiringNeverChanges : Prop :=
  ∀ (acts : List HostAction) (s t : State), hostRun acts s = .next t → t.wired = s.wired

/-- The bytes the host queues come out of consecutive IN instructions in order, after those already there, with 0x00 from an empty FIFO
(20_memory.md section 4; 43_io.md; queueing on a wired port is the host's action of 70_reset_and_hazards.md section 5, log 17). -/
def Obligations.QueuedBytesComeOutInOrder : Prop :=
  ∀ (p : Byte) (q : Port) (bytes : List Byte) (s : State), Ports.find s.ports p = some q →
    ∃ q', Ports.find (s.hostEnqueue p bytes).ports p = some q' ∧ q'.fifo = q.fifo ++ bytes ∧ q'.sink = q.sink ∧
    ∀ n : Nat, ∃ t : State, execTimes (.inp p) n (s.hostEnqueue p bytes) = .next t ∧
      (Ports.find t.ports p).map (fun q => q.fifo) = some ((q.fifo ++ bytes).drop n) ∧
      (0 < n → t.regs.a = ((q.fifo ++ bytes).drop (n - 1)).headD 0x00)

/-! ## Memory and the host -/

/-- A host write stores the value modulo 256 at the address modulo 65536, leaves every other byte, and changes nothing but memory
(20_memory.md R36, with its example). -/
def Obligations.HostWriteMasksValueAndAddress : Prop :=
  ∀ (s : State) (addr value : Nat), s.mem.wf = true →
    (∀ a : Nat, (s.hostWrite addr value).hostRead a =
      if a % 65536 = addr % 65536 then BitVec.ofNat 8 (value % 256) else s.hostRead a) ∧
    (s.hostWrite 0x10000 0x1FF).hostRead 0x0000 = 0xFF ∧
    s.hostWrite addr value = { s with mem := (s.hostWrite addr value).mem }

/-- `loadProgram` places each byte at its wrapped address, a later byte over an earlier one at the same address, and leaves every other
byte (20_memory.md section 2; the order of a load longer than memory is the spec's decision D14). -/
def Obligations.LoadProgramPlacesEveryByte : Prop :=
  ∀ (s : State) (base : Nat) (bytes : List Nat), s.mem.wf = true →
    (∀ (k : Nat) (hk : k < bytes.length),
      (∀ j, k < j → j < bytes.length → (base + j) % 65536 ≠ (base + k) % 65536) →
      (s.hostLoadProgram base bytes).hostRead (base + k) = BitVec.ofNat 8 (bytes[k] % 256)) ∧
    (∀ a : Nat, (∀ k < bytes.length, a % 65536 ≠ (base + k) % 65536) →
      (s.hostLoadProgram base bytes).hostRead a = s.hostRead a) ∧
    s.hostLoadProgram base bytes = { s with mem := (s.hostLoadProgram base bytes).mem }

/-- Memories in canonical form that read alike at all 65536 addresses are equal data (the model's form of memory, log 3). -/
def Obligations.MemoriesThatReadAlikeAreEqual : Prop :=
  ∀ m m' : Memory, m.wf = true → m'.wf = true → (∀ a < 65536, m.read a = m'.read a) → m = m'

/-- The same operands and effect at every placement: an instruction stored by `withFetchWord` is what the decoder reads and what the very
next step runs (the host's two questions; log 18; the signals of the fetch by D23 and D7, logs 13 and 6). -/
def Obligations.PlacedInstructionRunsNext : Prop :=
  ∀ (i : Instr) (s : State), s.mem.wf = true →
    decodeTableWord (8 * (encode i).length) (packBytes (encode i)) = some i ∧
    ∃ t, exec i (s.withFetchWord (8 * (encode i).length) (packBytes (encode i))).fetchOpcode = .next t ∧
      step (s.withFetchWord (8 * (encode i).length) (packBytes (encode i))) = .next t.drawStatus

/-! ## Reset -/

/-- Reset gives every engine field its reset value, the OPEN ones from `reset_regs`, and leaves memory, the ports and the log; before any
host write memory holds `init_mem` (70_reset_and_hazards.md section 1; the values are the spec's decisions D4, D5, D6, D7, that memory stays
D14; logs 2, 12, 6, 3). -/
def Obligations.ResetSetsEngineStateOnly : Prop :=
  (∀ (s : State) (r : ResetRegs),
    (s.hostReset r).pc = 0x0000 ∧ (s.hostReset r).status.halted = false ∧ (s.hostReset r).status.inte = false ∧
    (s.hostReset r).status.input = false ∧ (s.hostReset r).status.output = false ∧
    (s.hostReset r).status.m1 = Config.drawM1 s.draws ∧ (s.hostReset r).status.memr = Config.drawMemr s.draws ∧
    (s.hostReset r).status.wait = Config.drawWait s.draws ∧
    (s.hostReset r).regs = r.regs ∧ (s.hostReset r).sp = r.sp ∧ (s.hostReset r).flags = r.flags ∧
    (s.hostReset r).mem = s.mem ∧ (s.hostReset r).ports = s.ports ∧ (s.hostReset r).log = s.log) ∧
  (∀ (r : ResetRegs) (m : Memory) (ps : Ports), (State.powerOn r m ps).mem = m)

/-- The state right after reset holds what the spec gives: the pc and the four status bits (70_reset_and_hazards.md section 1; decisions D5, D6,
log 12). The values
of the OPEN parameters in it are the model's choice (logs 2, 3, 4) and are not stated. -/
def Obligations.ResetStateHoldsTheSpecsValues : Prop :=
  State.reset.pc = 0x0000 ∧ State.reset.status.halted = false ∧ State.reset.status.inte = false ∧
  State.reset.status.input = false ∧ State.reset.status.output = false ∧ Sys2Proof.core.reset = State.reset

/-- Loading before a reset gives the same machine as loading after it (70_reset_and_hazards.md section 2). -/
def Obligations.LoadAndResetCommute : Prop :=
  ∀ (s : State) (r : ResetRegs) (base : Nat) (bytes : List Nat),
    (s.hostLoadProgram base bytes).hostReset r = (s.hostReset r).hostLoadProgram base bytes

/-! ## The invariant -/

/-- The reset state, and every new machine whose memory and ports are in canonical form, meets the invariant (the canonical forms are the
model's, logs 3 and 4). -/
def Obligations.ResetMeetsInvariant : Prop :=
  State.reset.Inv ∧
  ∀ (r : ResetRegs) (m : Memory) (ps : Ports), m.wf = true → ps.wf = true → (State.powerOn r m ps).Inv

/-- Every step keeps the invariant: canonical memory and ports, `inte` clear, no I/O signal while halted, never both I/O signals
(10_state.md section 5; decisions D6, D23, logs 12 and 13). -/
def Obligations.StepKeepsInvariant : Prop :=
  ∀ s t : State, s.Inv → step s = .next t → t.Inv

/-- Every run of host actions keeps the invariant (10_state.md section 5; 70_reset_and_hazards.md section 5). -/
def Obligations.HostRunKeepsInvariant : Prop :=
  ∀ (acts : List HostAction) (s t : State), s.Inv → hostRun acts s = .next t → t.Inv

/-! ## Encoding -/

/-- Decode and encode agree: bytes decode to `i` exactly when they begin with `i`'s encoding, with every operand (30_encoding.md sections 2 to 5;
the bytes by decisions D1 and D8, logs 1 and 9). -/
def Obligations.DecodeEncodeAgree : Prop :=
  ∀ (bytes rest : List Byte) (i : Instr), decode bytes = .ok (i, rest) ↔ bytes = encode i ++ rest

/-- The length by opcode, and the split of the 256 opcode bytes into the seven and the 249 (30_encoding.md sections 5, 6, rules the spec marks
as derived; the bytes are its decision D1, log 1, the length of OUT and IN its decision D8, log 9). -/
def Obligations.OpcodeDecidesLengthAndSupport : Prop :=
  (∀ op : Byte, opcodeLength op =
    if op = 0x3E ∨ op = 0xD3 ∨ op = 0xDB then 2 else if op = 0xC3 then 3 else 1) ∧
  (∀ (op x y : Byte) (rest : List Byte),
    (op ∈ supportedOpcodes → ∃ i r, decode (op :: x :: y :: rest) = .ok (i, r) ∧ i.opcode = op ∧
      r.length + opcodeLength op = rest.length + 3) ∧
    (op ∉ supportedOpcodes → decode (op :: x :: y :: rest) = .error (.unimplemented op)))

/-- The bytes of the spec's examples decode to what they stand for (30_encoding.md section 3; 95_test_vectors.md; all bytes but 0xC3 by the spec's
decision D1, log 1; the operand byte of OUT and IN by D8, log 9). -/
def Obligations.SpecWordsDecode : Prop :=
  decode [0xC3, 0x34, 0x12] = .ok (.jmp 0x1234, []) ∧ decode [0x3E, 0x42] = .ok (.mviA 0x42, []) ∧
  decode [0x80] = .ok (.addB, []) ∧ decode [0xD3, 0x01] = .ok (.out 0x01, []) ∧ decode [0xDB, 0x01] = .ok (.inp 0x01, []) ∧
  decode [0x00] = .ok (.nop, []) ∧ decode [0x76] = .ok (.hlt, []) ∧ decode [0x3F, 0x42] = .error (.unimplemented 0x3F)

/-- The bytes of each assembler spelling, and the lines that name no instruction (30_encoding.md section 7, the spec's decision D22,
log 19; the bytes but 0xC3 are its decision D1, section 3, log 1, and the operand byte of OUT and IN its decision D8, log 9). -/
def Obligations.AssemblerSpellings : Prop :=
  AsmStmt.bytes? .nop = some [0x00] ∧ AsmStmt.bytes? .hlt = some [0x76] ∧
  (∀ n < 65536, AsmStmt.bytes? (.jmp n) = some [0xC3, BitVec.ofNat 8 (n % 256), BitVec.ofNat 8 (n / 256)]) ∧
  (∀ n < 256, AsmStmt.bytes? (.mvi .A n) = some [0x3E, BitVec.ofNat 8 n]) ∧
  AsmStmt.bytes? (.add .B) = some [0x80] ∧
  (∀ n < 256, AsmStmt.bytes? (.out n) = some [0xD3, BitVec.ofNat 8 n]) ∧
  (∀ n < 256, AsmStmt.bytes? (.inp n) = some [0xDB, BitVec.ofNat 8 n]) ∧
  (∀ (r : Reg) (n : Nat), r ≠ .A → AsmStmt.bytes? (.mvi r n) = none) ∧
  (∀ r : Reg, r ≠ .B → AsmStmt.bytes? (.add r) = none) ∧
  (∀ x : AsmStmt, x.wellFormed = true ↔ x.bytes?.isSome = true)
end

