-- ==== Sys2Proof/Laws/Decode.lean ====
section
/-! SUPPORT. The laws of the decoder's parts: byte pairs, the opcode map, the bytes of a numbered word. -/

namespace Sys2Proof

theorem toNat_hiLo (hi lo : Byte) : (hiLo hi lo).toNat = hi.toNat * 256 + lo.toNat := by
  have := hi.isLt
  have := lo.isLt
  simp only [hiLo, BitVec.toNat_ofNat]
  omega

theorem toNat_lowByte (v : Addr) : (lowByte v).toNat = v.toNat % 256 := by simp [lowByte]

theorem toNat_highByte (v : Addr) : (highByte v).toNat = v.toNat / 256 := by
  have := v.isLt
  simp only [highByte, BitVec.extractLsb'_toNat, Nat.shiftRight_eq_div_pow]
  omega

@[simp] theorem hiLo_high_low (v : Addr) : hiLo (highByte v) (lowByte v) = v := by
  apply BitVec.eq_of_toNat_eq
  rw [toNat_hiLo, toNat_lowByte, toNat_highByte]
  omega

@[simp] theorem lowByte_hiLo (hi lo : Byte) : lowByte (hiLo hi lo) = lo := by
  apply BitVec.eq_of_toNat_eq
  rw [toNat_lowByte, toNat_hiLo]
  omega

@[simp] theorem highByte_hiLo (hi lo : Byte) : highByte (hiLo hi lo) = hi := by
  apply BitVec.eq_of_toNat_eq
  rw [toNat_highByte, toNat_hiLo]
  omega

/-- The opcode map, read as a chain of comparisons with the whole byte (30_encoding.md R58). -/
theorem formOf_eq (op : Byte) :
    formOf op =
      if op = 0x00 then some (.f1 .nop) else if op = 0x76 then some (.f1 .hlt) else if op = 0xC3 then some (.f3 .jmp)
      else if op = 0x3E then some (.f2 .mviA) else if op = 0x80 then some (.f1 .addB) else if op = 0xD3 then some (.f2 .out)
      else if op = 0xDB then some (.f2 .inp) else none := rfl

/-- Every instruction's opcode has a row, whose length is the instruction's. -/
theorem opcodeLength_opcode (i : Instr) : opcodeLength i.opcode = (encode i).length := by
  cases i <;> rfl

/-- The instruction a decode gives is made of the opcode's row and the operand bytes: every way a decode succeeds. -/
theorem decode_cons_cases {op : Byte} {rest r : List Byte} {i : Instr} (h : decode (op :: rest) = .ok (i, r)) :
    (op = 0x00 ∧ i = .nop ∧ r = rest) ∨ (op = 0x76 ∧ i = .hlt ∧ r = rest) ∨
    (op = 0xC3 ∧ ∃ lo hi, rest = lo :: hi :: r ∧ i = .jmp (hiLo hi lo)) ∨
    (op = 0x3E ∧ ∃ d, rest = d :: r ∧ i = .mviA d) ∨ (op = 0x80 ∧ i = .addB ∧ r = rest) ∨
    (op = 0xD3 ∧ ∃ p, rest = p :: r ∧ i = .out p) ∨ (op = 0xDB ∧ ∃ p, rest = p :: r ∧ i = .inp p) := by
  simp only [decode, formOf_eq] at h
  split_ifs at h <;> rcases rest with _ | ⟨x, _ | ⟨y, rest⟩⟩ <;> simp_all [Form.assemble]

/-- The line that spells an instruction names it. -/
theorem instr_toAsm (i : Instr) : i.toAsm.instr? = some i := by
  cases i with
  | jmp t => simp [Instr.toAsm, AsmStmt.instr?, t.isLt]
  | mviA d => simp [Instr.toAsm, AsmStmt.instr?, d.isLt]
  | out p => simp [Instr.toAsm, AsmStmt.instr?, p.isLt]
  | inp p => simp [Instr.toAsm, AsmStmt.instr?, p.isLt]
  | _ => rfl

@[simp] theorem packBytes_nil : packBytes [] = 0 := rfl

@[simp] theorem packBytes_cons (b : Byte) (bs : List Byte) : packBytes (b :: bs) = b.toNat + 256 * packBytes bs := rfl

theorem packBytes_lt (bs : List Byte) : packBytes bs < 2 ^ (8 * bs.length) := by
  induction bs with
  | nil => simp
  | cons b bs ih =>
    have := b.isLt
    rw [packBytes_cons, List.length_cons, show 8 * (bs.length + 1) = 8 * bs.length + 8 by omega, Nat.pow_add]
    omega

/-- The bytes of a packed number, then zeros. -/
theorem unpackBytes_packBytes (bs : List Byte) (n : Nat) :
    unpackBytes (bs.length + n) (packBytes bs) = bs ++ List.replicate n 0 := by
  induction bs with
  | nil =>
    induction n with
    | zero => rfl
    | succ n ih => simpa [unpackBytes, List.replicate_succ] using ih
  | cons b bs ih =>
    have hb := b.isLt
    have hlow : BitVec.ofNat 8 (b.toNat + 256 * packBytes bs) = b := by
      apply BitVec.eq_of_toNat_eq
      simp only [BitVec.toNat_ofNat]
      omega
    have hdiv : (b.toNat + 256 * packBytes bs) / 256 = packBytes bs := by omega
    rw [List.length_cons, show bs.length + 1 + n = (bs.length + n) + 1 by omega, packBytes_cons, unpackBytes, hlow, hdiv, ih]
    rfl

/-- An instruction's own bits, numbered as the table numbers them, are its bytes and then zeros. -/
theorem tableBytes_encode (i : Instr) :
    tableBytes (8 * (encode i).length) (packBytes (encode i)) = encode i ++ List.replicate (3 - (encode i).length) 0 := by
  have hlen : (encode i).length ≤ 3 := by cases i <;> simp [encode, Instr.operandBytes]
  rw [tableBytes, Nat.mod_eq_of_lt (packBytes_lt _), ← unpackBytes_packBytes, Nat.add_sub_cancel' hlen]

end Sys2Proof
end

