-- ==== Sys2Proof/Laws/Flags.lean ====
section
/-! SUPPORT. The laws of the flag computation and of the sum. -/

namespace Sys2Proof.Machine

/-- The count of 1 bits is the sum of the bits. -/
theorem popcount_eq_sum (v : Byte) : popcount v = ((List.range 8).map (fun k => v.toNat / 2 ^ k % 2)).sum := by
  have bit (k : Nat) : (if decide (v.toNat / 2 ^ k % 2 = 1) = true then 1 else 0) = v.toNat / 2 ^ k % 2 := by split <;> simp_all
  simp only [popcount, List.range, List.range.loop, List.countP_cons, List.countP_nil, List.map, List.sum_cons, List.sum_nil,
    BitVec.getLsbD, Nat.testBit_eq_decide_div_mod_eq, bit]
  omega

theorem flagsOf_z (t : Nat) : (flagsOf t).z = decide (BitVec.ofNat 8 t = (0 : Byte)) := rfl
theorem flagsOf_s (t : Nat) : (flagsOf t).s = (BitVec.ofNat 8 t).getLsbD 7 := rfl
theorem flagsOf_p (t : Nat) : (flagsOf t).p = decide (popcount (BitVec.ofNat 8 t) % 2 = 0) := rfl
theorem flagsOf_cy (t : Nat) : (flagsOf t).cy = decide (t > 255) := rfl

/-- The exact sum of two bytes (42_arithmetic.md R71). -/
theorem sumAB_le (s : State) : s.sumAB ≤ 510 := by
  have := s.regs.a.isLt
  have := s.regs.b.isLt
  simp only [State.sumAB, State.reg]
  omega

/-- Its low byte is the wrapping sum. -/
theorem ofNat_sumAB (s : State) : BitVec.ofNat 8 s.sumAB = s.regs.a + s.regs.b := by
  apply BitVec.eq_of_toNat_eq
  simp [State.sumAB, State.reg, BitVec.toNat_add]

end Sys2Proof.Machine
end

