-- ==== Sys2Proof/Laws/State.lean ====
section
/-! SUPPORT. What each update of State leaves in each field, one lemma per field per update, true by rfl. -/

namespace Sys2Proof.Machine

variable (s : State)

/-! ## setA -/

@[simp] theorem State.setA_regs (v : Byte) : (s.setA v).regs = { s.regs with a := v } := rfl
@[simp] theorem State.setA_pc (v : Byte) : (s.setA v).pc = s.pc := rfl
@[simp] theorem State.setA_sp (v : Byte) : (s.setA v).sp = s.sp := rfl
@[simp] theorem State.setA_flags (v : Byte) : (s.setA v).flags = s.flags := rfl
@[simp] theorem State.setA_status (v : Byte) : (s.setA v).status = s.status := rfl
@[simp] theorem State.setA_mem (v : Byte) : (s.setA v).mem = s.mem := rfl
@[simp] theorem State.setA_ports (v : Byte) : (s.setA v).ports = s.ports := rfl
@[simp] theorem State.setA_log (v : Byte) : (s.setA v).log = s.log := rfl
@[simp] theorem State.setA_ret (v : Byte) : (s.setA v).ret = s.ret := rfl
@[simp] theorem State.setA_draws (v : Byte) : (s.setA v).draws = s.draws := rfl

/-! ## setPc -/

@[simp] theorem State.setPc_regs (t : Addr) : (s.setPc t).regs = s.regs := rfl
@[simp] theorem State.setPc_pc (t : Addr) : (s.setPc t).pc = t := rfl
@[simp] theorem State.setPc_sp (t : Addr) : (s.setPc t).sp = s.sp := rfl
@[simp] theorem State.setPc_flags (t : Addr) : (s.setPc t).flags = s.flags := rfl
@[simp] theorem State.setPc_status (t : Addr) : (s.setPc t).status = s.status := rfl
@[simp] theorem State.setPc_mem (t : Addr) : (s.setPc t).mem = s.mem := rfl
@[simp] theorem State.setPc_ports (t : Addr) : (s.setPc t).ports = s.ports := rfl
@[simp] theorem State.setPc_log (t : Addr) : (s.setPc t).log = s.log := rfl
@[simp] theorem State.setPc_ret (t : Addr) : (s.setPc t).ret = s.ret := rfl
@[simp] theorem State.setPc_draws (t : Addr) : (s.setPc t).draws = s.draws := rfl

/-! ## setFlags -/

@[simp] theorem State.setFlags_regs (f : Flags) : (s.setFlags f).regs = s.regs := rfl
@[simp] theorem State.setFlags_pc (f : Flags) : (s.setFlags f).pc = s.pc := rfl
@[simp] theorem State.setFlags_sp (f : Flags) : (s.setFlags f).sp = s.sp := rfl
@[simp] theorem State.setFlags_flags (f : Flags) : (s.setFlags f).flags = f := rfl
@[simp] theorem State.setFlags_status (f : Flags) : (s.setFlags f).status = s.status := rfl
@[simp] theorem State.setFlags_mem (f : Flags) : (s.setFlags f).mem = s.mem := rfl
@[simp] theorem State.setFlags_ports (f : Flags) : (s.setFlags f).ports = s.ports := rfl
@[simp] theorem State.setFlags_log (f : Flags) : (s.setFlags f).log = s.log := rfl
@[simp] theorem State.setFlags_ret (f : Flags) : (s.setFlags f).ret = s.ret := rfl
@[simp] theorem State.setFlags_draws (f : Flags) : (s.setFlags f).draws = s.draws := rfl

/-! ## setPorts -/

@[simp] theorem State.setPorts_regs (ps : Ports) : (s.setPorts ps).regs = s.regs := rfl
@[simp] theorem State.setPorts_pc (ps : Ports) : (s.setPorts ps).pc = s.pc := rfl
@[simp] theorem State.setPorts_sp (ps : Ports) : (s.setPorts ps).sp = s.sp := rfl
@[simp] theorem State.setPorts_flags (ps : Ports) : (s.setPorts ps).flags = s.flags := rfl
@[simp] theorem State.setPorts_status (ps : Ports) : (s.setPorts ps).status = s.status := rfl
@[simp] theorem State.setPorts_mem (ps : Ports) : (s.setPorts ps).mem = s.mem := rfl
@[simp] theorem State.setPorts_ports (ps : Ports) : (s.setPorts ps).ports = ps := rfl
@[simp] theorem State.setPorts_log (ps : Ports) : (s.setPorts ps).log = s.log := rfl
@[simp] theorem State.setPorts_ret (ps : Ports) : (s.setPorts ps).ret = s.ret := rfl
@[simp] theorem State.setPorts_draws (ps : Ports) : (s.setPorts ps).draws = s.draws := rfl

/-! ## halt -/

@[simp] theorem State.halt_regs : (s.halt).regs = s.regs := rfl
@[simp] theorem State.halt_pc : (s.halt).pc = s.pc := rfl
@[simp] theorem State.halt_sp : (s.halt).sp = s.sp := rfl
@[simp] theorem State.halt_flags : (s.halt).flags = s.flags := rfl
@[simp] theorem State.halt_status : (s.halt).status = { s.status with halted := true } := rfl
@[simp] theorem State.halt_mem : (s.halt).mem = s.mem := rfl
@[simp] theorem State.halt_ports : (s.halt).ports = s.ports := rfl
@[simp] theorem State.halt_log : (s.halt).log = s.log := rfl
@[simp] theorem State.halt_ret : (s.halt).ret = s.ret := rfl
@[simp] theorem State.halt_draws : (s.halt).draws = s.draws := rfl

/-! ## markInput -/

@[simp] theorem State.markInput_regs : (s.markInput).regs = s.regs := rfl
@[simp] theorem State.markInput_pc : (s.markInput).pc = s.pc := rfl
@[simp] theorem State.markInput_sp : (s.markInput).sp = s.sp := rfl
@[simp] theorem State.markInput_flags : (s.markInput).flags = s.flags := rfl
@[simp] theorem State.markInput_status : (s.markInput).status = { s.status with input := true } := rfl
@[simp] theorem State.markInput_mem : (s.markInput).mem = s.mem := rfl
@[simp] theorem State.markInput_ports : (s.markInput).ports = s.ports := rfl
@[simp] theorem State.markInput_log : (s.markInput).log = s.log := rfl
@[simp] theorem State.markInput_ret : (s.markInput).ret = s.ret := rfl
@[simp] theorem State.markInput_draws : (s.markInput).draws = s.draws := rfl

/-! ## markOutput -/

@[simp] theorem State.markOutput_regs : (s.markOutput).regs = s.regs := rfl
@[simp] theorem State.markOutput_pc : (s.markOutput).pc = s.pc := rfl
@[simp] theorem State.markOutput_sp : (s.markOutput).sp = s.sp := rfl
@[simp] theorem State.markOutput_flags : (s.markOutput).flags = s.flags := rfl
@[simp] theorem State.markOutput_status : (s.markOutput).status = { s.status with output := true } := rfl
@[simp] theorem State.markOutput_mem : (s.markOutput).mem = s.mem := rfl
@[simp] theorem State.markOutput_ports : (s.markOutput).ports = s.ports := rfl
@[simp] theorem State.markOutput_log : (s.markOutput).log = s.log := rfl
@[simp] theorem State.markOutput_ret : (s.markOutput).ret = s.ret := rfl
@[simp] theorem State.markOutput_draws : (s.markOutput).draws = s.draws := rfl

/-! ## returns -/

@[simp] theorem State.returns_regs (c : Nat) : (s.returns c).regs = s.regs := rfl
@[simp] theorem State.returns_pc (c : Nat) : (s.returns c).pc = s.pc := rfl
@[simp] theorem State.returns_sp (c : Nat) : (s.returns c).sp = s.sp := rfl
@[simp] theorem State.returns_flags (c : Nat) : (s.returns c).flags = s.flags := rfl
@[simp] theorem State.returns_status (c : Nat) : (s.returns c).status = s.status := rfl
@[simp] theorem State.returns_mem (c : Nat) : (s.returns c).mem = s.mem := rfl
@[simp] theorem State.returns_ports (c : Nat) : (s.returns c).ports = s.ports := rfl
@[simp] theorem State.returns_log (c : Nat) : (s.returns c).log = s.log := rfl
@[simp] theorem State.returns_ret (c : Nat) : (s.returns c).ret = c := rfl
@[simp] theorem State.returns_draws (c : Nat) : (s.returns c).draws = s.draws := rfl

/-! ## haltedNoOp -/

@[simp] theorem State.haltedNoOp_regs : (s.haltedNoOp).regs = s.regs := rfl
@[simp] theorem State.haltedNoOp_pc : (s.haltedNoOp).pc = s.pc := rfl
@[simp] theorem State.haltedNoOp_sp : (s.haltedNoOp).sp = s.sp := rfl
@[simp] theorem State.haltedNoOp_flags : (s.haltedNoOp).flags = s.flags := rfl
@[simp] theorem State.haltedNoOp_status : (s.haltedNoOp).status = s.status := rfl
@[simp] theorem State.haltedNoOp_mem : (s.haltedNoOp).mem = s.mem := rfl
@[simp] theorem State.haltedNoOp_ports : (s.haltedNoOp).ports = s.ports := rfl
@[simp] theorem State.haltedNoOp_log : (s.haltedNoOp).log = s.log := rfl
@[simp] theorem State.haltedNoOp_ret : (s.haltedNoOp).ret = 0 := rfl
@[simp] theorem State.haltedNoOp_draws : (s.haltedNoOp).draws = s.draws := rfl

/-! ## fetchOpcode -/

@[simp] theorem State.fetchOpcode_regs : (s.fetchOpcode).regs = s.regs := rfl
@[simp] theorem State.fetchOpcode_pc : (s.fetchOpcode).pc = s.pc + 1 := rfl
@[simp] theorem State.fetchOpcode_sp : (s.fetchOpcode).sp = s.sp := rfl
@[simp] theorem State.fetchOpcode_flags : (s.fetchOpcode).flags = s.flags := rfl
@[simp] theorem State.fetchOpcode_status : (s.fetchOpcode).status = { s.status with input := false, output := false } := rfl
@[simp] theorem State.fetchOpcode_mem : (s.fetchOpcode).mem = s.mem := rfl
@[simp] theorem State.fetchOpcode_ports : (s.fetchOpcode).ports = s.ports := rfl
@[simp] theorem State.fetchOpcode_log : (s.fetchOpcode).log = s.log := rfl
@[simp] theorem State.fetchOpcode_ret : (s.fetchOpcode).ret = s.ret := rfl
@[simp] theorem State.fetchOpcode_draws : (s.fetchOpcode).draws = s.draws := rfl

/-! ## drawStatus -/

@[simp] theorem State.drawStatus_regs : (s.drawStatus).regs = s.regs := rfl
@[simp] theorem State.drawStatus_pc : (s.drawStatus).pc = s.pc := rfl
@[simp] theorem State.drawStatus_sp : (s.drawStatus).sp = s.sp := rfl
@[simp] theorem State.drawStatus_flags : (s.drawStatus).flags = s.flags := rfl
@[simp] theorem State.drawStatus_status : (s.drawStatus).status = { s.status with m1 := Config.drawM1 s.draws, memr := Config.drawMemr s.draws, wait := Config.drawWait s.draws } := rfl
@[simp] theorem State.drawStatus_mem : (s.drawStatus).mem = s.mem := rfl
@[simp] theorem State.drawStatus_ports : (s.drawStatus).ports = s.ports := rfl
@[simp] theorem State.drawStatus_log : (s.drawStatus).log = s.log := rfl
@[simp] theorem State.drawStatus_ret : (s.drawStatus).ret = s.ret := rfl
@[simp] theorem State.drawStatus_draws : (s.drawStatus).draws = s.draws + 1 := rfl

/-! ## raiseUnimplemented -/

@[simp] theorem State.raiseUnimplemented_regs (op : Byte) (a : Addr) : (s.raiseUnimplemented op a).regs = s.regs := rfl
@[simp] theorem State.raiseUnimplemented_pc (op : Byte) (a : Addr) : (s.raiseUnimplemented op a).pc = s.pc := rfl
@[simp] theorem State.raiseUnimplemented_sp (op : Byte) (a : Addr) : (s.raiseUnimplemented op a).sp = s.sp := rfl
@[simp] theorem State.raiseUnimplemented_flags (op : Byte) (a : Addr) : (s.raiseUnimplemented op a).flags = s.flags := rfl
@[simp] theorem State.raiseUnimplemented_status (op : Byte) (a : Addr) : (s.raiseUnimplemented op a).status = { s.status with halted := true } := rfl
@[simp] theorem State.raiseUnimplemented_mem (op : Byte) (a : Addr) : (s.raiseUnimplemented op a).mem = s.mem := rfl
@[simp] theorem State.raiseUnimplemented_ports (op : Byte) (a : Addr) : (s.raiseUnimplemented op a).ports = s.ports := rfl
@[simp] theorem State.raiseUnimplemented_log (op : Byte) (a : Addr) : (s.raiseUnimplemented op a).log = s.log ++ [{ opcode := op, address := a }] := rfl
@[simp] theorem State.raiseUnimplemented_ret (op : Byte) (a : Addr) : (s.raiseUnimplemented op a).ret = Config.unimplCycles := rfl
@[simp] theorem State.raiseUnimplemented_draws (op : Byte) (a : Addr) : (s.raiseUnimplemented op a).draws = s.draws := rfl

/-! ## hostReset -/

@[simp] theorem State.hostReset_regs (r : ResetRegs) : (s.hostReset r).regs = r.regs := rfl
@[simp] theorem State.hostReset_pc (r : ResetRegs) : (s.hostReset r).pc = 0x0000 := rfl
@[simp] theorem State.hostReset_sp (r : ResetRegs) : (s.hostReset r).sp = r.sp := rfl
@[simp] theorem State.hostReset_flags (r : ResetRegs) : (s.hostReset r).flags = r.flags := rfl
@[simp] theorem State.hostReset_status (r : ResetRegs) : (s.hostReset r).status = { halted := false, inte := false, input := false, output := false, m1 := Config.drawM1 s.draws, memr := Config.drawMemr s.draws, wait := Config.drawWait s.draws } := rfl
@[simp] theorem State.hostReset_mem (r : ResetRegs) : (s.hostReset r).mem = s.mem := rfl
@[simp] theorem State.hostReset_ports (r : ResetRegs) : (s.hostReset r).ports = s.ports := rfl
@[simp] theorem State.hostReset_log (r : ResetRegs) : (s.hostReset r).log = s.log := rfl
@[simp] theorem State.hostReset_ret (r : ResetRegs) : (s.hostReset r).ret = 0 := rfl
@[simp] theorem State.hostReset_draws (r : ResetRegs) : (s.hostReset r).draws = s.draws + 1 := rfl

/-! ## skipOperand -/

@[simp] theorem State.skipOperand_regs : (s.skipOperand).regs = s.regs := rfl
@[simp] theorem State.skipOperand_pc : (s.skipOperand).pc = s.pc + 1 := rfl
@[simp] theorem State.skipOperand_sp : (s.skipOperand).sp = s.sp := rfl
@[simp] theorem State.skipOperand_flags : (s.skipOperand).flags = s.flags := rfl
@[simp] theorem State.skipOperand_status : (s.skipOperand).status = s.status := rfl
@[simp] theorem State.skipOperand_mem : (s.skipOperand).mem = s.mem := rfl
@[simp] theorem State.skipOperand_ports : (s.skipOperand).ports = s.ports := rfl
@[simp] theorem State.skipOperand_log : (s.skipOperand).log = s.log := rfl
@[simp] theorem State.skipOperand_ret : (s.skipOperand).ret = s.ret := rfl
@[simp] theorem State.skipOperand_draws : (s.skipOperand).draws = s.draws := rfl

/-! ## hostWrite -/

@[simp] theorem State.hostWrite_regs (a v : Nat) : (s.hostWrite a v).regs = s.regs := rfl
@[simp] theorem State.hostWrite_pc (a v : Nat) : (s.hostWrite a v).pc = s.pc := rfl
@[simp] theorem State.hostWrite_sp (a v : Nat) : (s.hostWrite a v).sp = s.sp := rfl
@[simp] theorem State.hostWrite_flags (a v : Nat) : (s.hostWrite a v).flags = s.flags := rfl
@[simp] theorem State.hostWrite_status (a v : Nat) : (s.hostWrite a v).status = s.status := rfl
@[simp] theorem State.hostWrite_mem (a v : Nat) : (s.hostWrite a v).mem = s.mem.write a v := rfl
@[simp] theorem State.hostWrite_ports (a v : Nat) : (s.hostWrite a v).ports = s.ports := rfl
@[simp] theorem State.hostWrite_log (a v : Nat) : (s.hostWrite a v).log = s.log := rfl
@[simp] theorem State.hostWrite_ret (a v : Nat) : (s.hostWrite a v).ret = s.ret := rfl
@[simp] theorem State.hostWrite_draws (a v : Nat) : (s.hostWrite a v).draws = s.draws := rfl

/-! ## hostLoadProgram -/

@[simp] theorem State.hostLoadProgram_regs (base : Nat) (bs : List Nat) : (s.hostLoadProgram base bs).regs = s.regs := rfl
@[simp] theorem State.hostLoadProgram_pc (base : Nat) (bs : List Nat) : (s.hostLoadProgram base bs).pc = s.pc := rfl
@[simp] theorem State.hostLoadProgram_sp (base : Nat) (bs : List Nat) : (s.hostLoadProgram base bs).sp = s.sp := rfl
@[simp] theorem State.hostLoadProgram_flags (base : Nat) (bs : List Nat) : (s.hostLoadProgram base bs).flags = s.flags := rfl
@[simp] theorem State.hostLoadProgram_status (base : Nat) (bs : List Nat) : (s.hostLoadProgram base bs).status = s.status := rfl
@[simp] theorem State.hostLoadProgram_mem (base : Nat) (bs : List Nat) : (s.hostLoadProgram base bs).mem = s.mem.load base bs := rfl
@[simp] theorem State.hostLoadProgram_ports (base : Nat) (bs : List Nat) : (s.hostLoadProgram base bs).ports = s.ports := rfl
@[simp] theorem State.hostLoadProgram_log (base : Nat) (bs : List Nat) : (s.hostLoadProgram base bs).log = s.log := rfl
@[simp] theorem State.hostLoadProgram_ret (base : Nat) (bs : List Nat) : (s.hostLoadProgram base bs).ret = s.ret := rfl
@[simp] theorem State.hostLoadProgram_draws (base : Nat) (bs : List Nat) : (s.hostLoadProgram base bs).draws = s.draws := rfl

/-! ## hostEnqueue -/

@[simp] theorem State.hostEnqueue_regs (p : Byte) (bytes : List Byte) : (s.hostEnqueue p bytes).regs = s.regs := rfl
@[simp] theorem State.hostEnqueue_pc (p : Byte) (bytes : List Byte) : (s.hostEnqueue p bytes).pc = s.pc := rfl
@[simp] theorem State.hostEnqueue_sp (p : Byte) (bytes : List Byte) : (s.hostEnqueue p bytes).sp = s.sp := rfl
@[simp] theorem State.hostEnqueue_flags (p : Byte) (bytes : List Byte) : (s.hostEnqueue p bytes).flags = s.flags := rfl
@[simp] theorem State.hostEnqueue_status (p : Byte) (bytes : List Byte) : (s.hostEnqueue p bytes).status = s.status := rfl
@[simp] theorem State.hostEnqueue_mem (p : Byte) (bytes : List Byte) : (s.hostEnqueue p bytes).mem = s.mem := rfl
@[simp] theorem State.hostEnqueue_ports (p : Byte) (bytes : List Byte) : (s.hostEnqueue p bytes).ports = s.ports.modify p (fun q => { q with fifo := q.fifo ++ bytes }) := rfl
@[simp] theorem State.hostEnqueue_log (p : Byte) (bytes : List Byte) : (s.hostEnqueue p bytes).log = s.log := rfl
@[simp] theorem State.hostEnqueue_ret (p : Byte) (bytes : List Byte) : (s.hostEnqueue p bytes).ret = s.ret := rfl
@[simp] theorem State.hostEnqueue_draws (p : Byte) (bytes : List Byte) : (s.hostEnqueue p bytes).draws = s.draws := rfl

/-! ## hostTakeOutput -/

@[simp] theorem State.hostTakeOutput_regs (p : Byte) (n : Nat) : (s.hostTakeOutput p n).regs = s.regs := rfl
@[simp] theorem State.hostTakeOutput_pc (p : Byte) (n : Nat) : (s.hostTakeOutput p n).pc = s.pc := rfl
@[simp] theorem State.hostTakeOutput_sp (p : Byte) (n : Nat) : (s.hostTakeOutput p n).sp = s.sp := rfl
@[simp] theorem State.hostTakeOutput_flags (p : Byte) (n : Nat) : (s.hostTakeOutput p n).flags = s.flags := rfl
@[simp] theorem State.hostTakeOutput_status (p : Byte) (n : Nat) : (s.hostTakeOutput p n).status = s.status := rfl
@[simp] theorem State.hostTakeOutput_mem (p : Byte) (n : Nat) : (s.hostTakeOutput p n).mem = s.mem := rfl
@[simp] theorem State.hostTakeOutput_ports (p : Byte) (n : Nat) : (s.hostTakeOutput p n).ports = s.ports.modify p (fun q => { q with sink := q.sink.drop n }) := rfl
@[simp] theorem State.hostTakeOutput_log (p : Byte) (n : Nat) : (s.hostTakeOutput p n).log = s.log := rfl
@[simp] theorem State.hostTakeOutput_ret (p : Byte) (n : Nat) : (s.hostTakeOutput p n).ret = s.ret := rfl
@[simp] theorem State.hostTakeOutput_draws (p : Byte) (n : Nat) : (s.hostTakeOutput p n).draws = s.draws := rfl

/-! ## withFetchWord -/

@[simp] theorem State.withFetchWord_regs (nbits w : Nat) : (s.withFetchWord nbits w).regs = s.regs := rfl
@[simp] theorem State.withFetchWord_pc (nbits w : Nat) : (s.withFetchWord nbits w).pc = s.pc := rfl
@[simp] theorem State.withFetchWord_sp (nbits w : Nat) : (s.withFetchWord nbits w).sp = s.sp := rfl
@[simp] theorem State.withFetchWord_flags (nbits w : Nat) : (s.withFetchWord nbits w).flags = s.flags := rfl
@[simp] theorem State.withFetchWord_status (nbits w : Nat) : (s.withFetchWord nbits w).status = { s.status with halted := false } := rfl
@[simp] theorem State.withFetchWord_mem (nbits w : Nat) : (s.withFetchWord nbits w).mem = Memory.load s.mem s.pc.toNat ((tableBytes nbits w).map BitVec.toNat) := rfl
@[simp] theorem State.withFetchWord_ports (nbits w : Nat) : (s.withFetchWord nbits w).ports = s.ports := rfl
@[simp] theorem State.withFetchWord_log (nbits w : Nat) : (s.withFetchWord nbits w).log = s.log := rfl
@[simp] theorem State.withFetchWord_ret (nbits w : Nat) : (s.withFetchWord nbits w).ret = s.ret := rfl
@[simp] theorem State.withFetchWord_draws (nbits w : Nat) : (s.withFetchWord nbits w).draws = s.draws := rfl

/-! ## The reset state -/

@[simp] theorem reset_mem_wf : Memory.wf State.reset.mem = true := rfl

end Sys2Proof.Machine
end

