-- ==== Sys2Proof/Laws/Memory.lean ====
section
/-! SUPPORT. The laws of memory: every operation keeps the canonical form, and a read after a write. -/

namespace Sys2Proof.Machine

open Memory

/-! ## The canonical form -/

@[simp] theorem Memory.wfFrom_nil (lo : Nat) : wfFrom lo [] = true := rfl

theorem Memory.wfFrom_cons (lo a : Nat) (v : Byte) (m : Memory) :
    wfFrom lo ((a, v) :: m) = true ↔ lo ≤ a ∧ a < 65536 ∧ v ≠ unlisted ∧ wfFrom (a + 1) m = true := by
  simp [wfFrom, and_assoc]

theorem Memory.wfFrom_mono {lo lo' : Nat} (h : lo' ≤ lo) {m : Memory} (hm : wfFrom lo m = true) : wfFrom lo' m = true := by
  cases m with
  | nil => rfl
  | cons c m => obtain ⟨a, v⟩ := c; rw [wfFrom_cons] at hm ⊢; exact ⟨h.trans hm.1, hm.2⟩

/-- Below the first listed address everything reads as unlisted. -/
theorem Memory.lookup_below {lo k : Nat} (h : k < lo) {m : Memory} (hm : wfFrom lo m = true) : lookup m k = unlisted := by
  induction m generalizing lo with
  | nil => rfl
  | cons c m ih =>
    obtain ⟨a, v⟩ := c
    rw [wfFrom_cons] at hm
    have hak : a ≠ k := by omega
    simpa [lookup, hak] using ih (by omega : k < a + 1) hm.2.2.2

theorem Memory.insert_wfFrom {lo k : Nat} {v : Byte} {m : Memory} (hk : lo ≤ k) (hk' : k < 65536)
    (hm : wfFrom lo m = true) : wfFrom lo (insert m k v) = true := by
  induction m generalizing lo with
  | nil =>
    unfold insert
    split
    · rfl
    · exact (wfFrom_cons ..).2 ⟨hk, hk', ‹_›, rfl⟩
  | cons c m ih =>
    obtain ⟨a, w⟩ := c
    have hc := (wfFrom_cons ..).1 hm
    unfold insert
    split_ifs with h1 h2 h3 h4
    · exact hm
    · exact (wfFrom_cons ..).2 ⟨hk, hk', h2, (wfFrom_cons ..).2 ⟨by omega, hc.2.1, hc.2.2.1, hc.2.2.2⟩⟩
    · exact wfFrom_mono (by omega) hc.2.2.2
    · exact (wfFrom_cons ..).2 ⟨hk, hk', h4, h3 ▸ hc.2.2.2⟩
    · exact (wfFrom_cons ..).2 ⟨hc.1, hc.2.1, hc.2.2.1, ih (by omega) hc.2.2.2⟩

@[simp] theorem Memory.wf_nil : wf [] = true := rfl

/-- A host write keeps the canonical form. -/
theorem Memory.write_wf {m : Memory} (hm : m.wf = true) (addr v : Nat) : (m.write addr v).wf = true :=
  insert_wfFrom (Nat.zero_le _) (Nat.mod_lt _ (by decide)) hm

/-- A program load keeps the canonical form. -/
theorem Memory.load_wf {m : Memory} (hm : m.wf = true) (base : Nat) (bs : List Nat) : (m.load base bs).wf = true := by
  induction bs generalizing m base with
  | nil => exact hm
  | cons b bs ih => exact ih (write_wf hm _ _) _

/-! ## Reading after writing -/

theorem Memory.lookup_insert {lo k : Nat} {v : Byte} {m : Memory} (hm : wfFrom lo m = true) (j : Nat) :
    lookup (insert m k v) j = if j = k then v else lookup m j := by
  induction m generalizing lo with
  | nil =>
    unfold insert
    split_ifs <;> simp_all [lookup, eq_comm]
  | cons c m ih =>
    obtain ⟨a, w⟩ := c
    have hc := (wfFrom_cons ..).1 hm
    have below {i : Nat} (h : i < a + 1) : lookup m i = unlisted := lookup_below h hc.2.2.2
    rcases lt_trichotomy k a with hlt | rfl | hgt
    · by_cases hv : v = unlisted <;> by_cases hj : j = k
      · have haj : a ≠ j := by omega
        have hjl := below (by omega : j < a + 1)
        subst hj
        simp [insert, lookup, hlt, hv, haj, hjl]
      · simp [insert, hlt, hv, hj]
      · simp [insert, lookup, hlt, hv, hj]
      · simp [insert, lookup, hlt, hv, hj, Ne.symm hj]
    · by_cases hv : v = unlisted <;> by_cases hj : j = k
      · simp [insert, hv, hj, below]
      · simp [insert, lookup, hv, hj, Ne.symm hj]
      · simp [insert, lookup, hv, hj]
      · simp [insert, lookup, hv, hj, Ne.symm hj]
    · have hka : ¬ k < a := by omega
      have hak : a ≠ k := by omega
      have hi : insert ((a, w) :: m) k v = (a, w) :: insert m k v := by simp [insert, hka, hak]
      rw [hi]
      by_cases ha : a = j
      · subst ha
        simp [lookup, hak]
      · simpa [lookup, ha] using ih hc.2.2.2

/-- A read after a write, at every address (20_memory.md R35, R36). -/
theorem Memory.read_write {m : Memory} (hm : m.wf = true) (addr v j : Nat) :
    read (write m addr v) j = if j % 65536 = addr % 65536 then BitVec.ofNat 8 v else read m j :=
  lookup_insert hm _

/-- Only the address modulo 65536 counts (20_memory.md R35). -/
theorem Memory.read_congr (m : Memory) {i j : Nat} (h : i % 65536 = j % 65536) : read m i = read m j := by
  simp only [read, h]

/-- A load leaves every address alone that none of its bytes falls on (20_memory.md R41). -/
theorem Memory.read_load_other {m : Memory} (hm : m.wf = true) (base : Nat) (bs : List Nat) (j : Nat)
    (h : ∀ k < bs.length, j % 65536 ≠ (base + k) % 65536) : read (load m base bs) j = read m j := by
  induction bs generalizing m base with
  | nil => rfl
  | cons b bs ih =>
    rw [load, ih (write_wf hm _ _) _ fun k hk => by
      have := h (k + 1) (by simpa using hk)
      rwa [show base + 1 + k = base + (k + 1) by omega], read_write hm]
    exact if_neg (h 0 (by simp))

/-- A load of at most 65536 bytes places each byte at its address (20_memory.md R41). -/
theorem Memory.read_load_at {m : Memory} (hm : m.wf = true) (base : Nat) (bs : List Nat) (hn : bs.length ≤ 65536)
    (k : Nat) (hk : k < bs.length) : read (load m base bs) (base + k) = BitVec.ofNat 8 bs[k] := by
  induction bs generalizing m base k with
  | nil => exact absurd hk (by simp)
  | cons b bs ih =>
    simp only [List.length_cons] at hn hk
    cases k with
    | zero =>
      rw [load, read_load_other (write_wf hm _ _) _ _ _ fun k hk => by omega, read_write hm]
      simp
    | succ k =>
      rw [load, show base + (k + 1) = base + 1 + k by omega, ih (write_wf hm _ _) _ (by omega) k (by omega)]
      simp

/-! ## Runs of bytes -/

@[simp] theorem Memory.readRun_zero (m : Memory) (a : Addr) : readRun m a 0 = [] := rfl

@[simp] theorem Memory.readRun_succ (m : Memory) (a : Addr) (n : Nat) :
    readRun m a (n + 1) = read m a.toNat :: readRun m (a + 1) n := rfl

@[simp] theorem Memory.readRun_length (m : Memory) (a : Addr) (n : Nat) : (readRun m a n).length = n := by
  induction n generalizing a with
  | zero => rfl
  | succ n ih => simp [ih]

end Sys2Proof.Machine
end

