-- ==== Sys2Proof/Laws/PerInstr.lean ====
section
/-! SUPPORT. The per-instruction family RoundTrip: the decoder gives an instruction back from its bytes, and leaves what follows. -/

namespace Sys2Proof.Laws

/-- Decoding `i`'s bytes gives `i` with every operand, and the bytes that follow. -/
def RoundTrip.Statement (i : Instr) : Prop := ∀ rest, decode (encode i ++ rest) = .ok (i, rest)

theorem RoundTrip.nop : RoundTrip.Statement .nop := fun _ => rfl
theorem RoundTrip.hlt : RoundTrip.Statement .hlt := fun _ => rfl
theorem RoundTrip.jmp (target : Addr) : RoundTrip.Statement (.jmp target) := fun rest => by
  change Except.ok (Instr.jmp (hiLo (highByte target) (lowByte target)), rest) = _
  rw [hiLo_high_low]
theorem RoundTrip.mviA (d : Byte) : RoundTrip.Statement (.mviA d) := fun _ => rfl
theorem RoundTrip.addB : RoundTrip.Statement .addB := fun _ => rfl
theorem RoundTrip.out (p : Byte) : RoundTrip.Statement (.out p) := fun _ => rfl
theorem RoundTrip.inp (p : Byte) : RoundTrip.Statement (.inp p) := fun _ => rfl

end Sys2Proof.Laws
end

