-- ==== Sys2Proof/Laws/Ports.lean ====
section
/-! SUPPORT. The laws of the port space: every operation keeps the canonical form and the wiring, and acts on one port. -/

namespace Sys2Proof.Machine

open Ports

/-! ## One port at a time -/

@[simp] theorem Port.push_num (v : Byte) (q : Port) : (q.push v).num = q.num := rfl
@[simp] theorem Port.push_fifo (v : Byte) (q : Port) : (q.push v).fifo = q.fifo := rfl
@[simp] theorem Port.push_sink (v : Byte) (q : Port) : (q.push v).sink = q.sink ++ [v] := rfl
@[simp] theorem Port.pop_num (q : Port) : q.pop.num = q.num := rfl
@[simp] theorem Port.pop_fifo (q : Port) : q.pop.fifo = q.fifo.tail := rfl
@[simp] theorem Port.pop_sink (q : Port) : q.pop.sink = q.sink := rfl

/-- The numbers of the listed ports do not change. -/
theorem Ports.modify_nums (ps : Ports) (p : Byte) (f : Port → Port) (hf : ∀ q, (f q).num = q.num) :
    (modify ps p f).map (fun q => q.num) = ps.map (fun q => q.num) := by
  simp only [modify, List.map_map]
  refine List.map_congr_left fun q _ => ?_
  simp only [Function.comp_apply]
  split <;> simp [hf]

theorem Ports.find_modify_same (ps : Ports) (p : Byte) (f : Port → Port) (hf : ∀ q, (f q).num = q.num) :
    find (modify ps p f) p = (find ps p).map f := by
  induction ps with
  | nil => rfl
  | cons q ps ih =>
    by_cases h : q.num = p
    · simp [modify, find, h, hf]
    · simpa [modify, find, h] using ih

theorem Ports.find_modify_other (ps : Ports) {p p' : Byte} (h : p' ≠ p) (f : Port → Port) (hf : ∀ q, (f q).num = q.num) :
    find (modify ps p f) p' = find ps p' := by
  induction ps with
  | nil => rfl
  | cons q ps ih =>
    by_cases hq : q.num = p
    · have hq' : q.num ≠ p' := fun e => h (e ▸ hq)
      have hp : p ≠ p' := Ne.symm h
      simpa [modify, find, hq, hf, hp] using ih
    · by_cases hq' : q.num = p'
      · simp [modify, find, hq', h]
      · simpa [modify, find, hq, hq'] using ih

/-- An unwired port changes nothing (20_memory.md R45, R48). -/
theorem Ports.modify_unwired (ps : Ports) (p : Byte) (f : Port → Port) (h : find ps p = none) : modify ps p f = ps := by
  induction ps with
  | nil => rfl
  | cons q ps ih =>
    unfold find at h
    split at h
    · exact absurd h (by simp)
    · next hq => simpa [modify, hq] using ih h

/-! ## What the two primitives do, at every port -/

/-- PortOut at a wired port appends to its sink (20_memory.md R45). -/
theorem Ports.find_portOut_same {ps : Ports} {p : Byte} {q : Port} (h : find ps p = some q) (v : Byte) :
    find (portOut ps p v) p = some (q.push v) := by
  rw [portOut, find_modify_same ps p (Port.push v) (fun _ => rfl), h]
  rfl

theorem Ports.find_portOut_other (ps : Ports) {p p' : Byte} (h : p' ≠ p) (v : Byte) :
    find (portOut ps p v) p' = find ps p' :=
  find_modify_other ps h _ fun _ => rfl

/-- PortIn at a wired port pops its FIFO (20_memory.md R46). -/
theorem Ports.find_portInRest_same {ps : Ports} {p : Byte} {q : Port} (h : find ps p = some q) :
    find (portInRest ps p) p = some q.pop := by
  rw [portInRest, find_modify_same ps p Port.pop (fun _ => rfl), h]
  rfl

theorem Ports.find_portInRest_other (ps : Ports) {p p' : Byte} (h : p' ≠ p) : find (portInRest ps p) p' = find ps p' :=
  find_modify_other ps h _ fun _ => rfl

theorem Ports.portInByte_wired {ps : Ports} {p : Byte} {q : Port} (h : find ps p = some q) : portInByte ps p = q.front := by
  rw [portInByte, h]

theorem Ports.portInByte_unwired {ps : Ports} {p : Byte} (h : find ps p = none) : portInByte ps p = 0x00 := by
  rw [portInByte, h]

/-! ## The canonical form -/

@[simp] theorem Ports.wfFrom_nil (lo : Nat) : wfFrom lo [] = true := rfl

theorem Ports.wfFrom_cons (lo : Nat) (q : Port) (ps : Ports) :
    wfFrom lo (q :: ps) = true ↔ lo ≤ q.num.toNat ∧ wfFrom (q.num.toNat + 1) ps = true := by
  simp [wfFrom]

theorem Ports.modify_wfFrom {ps : Ports} {lo : Nat} (p : Byte) (f : Port → Port) (hf : ∀ q, (f q).num = q.num)
    (h : wfFrom lo ps = true) : wfFrom lo (modify ps p f) = true := by
  induction ps generalizing lo with
  | nil => rfl
  | cons q ps ih =>
    rw [wfFrom_cons] at h
    have hnum : (if q.num = p then f q else q).num = q.num := by split <;> simp [hf]
    exact (wfFrom_cons ..).2 ⟨by rw [hnum]; exact h.1, by rw [hnum]; exact ih h.2⟩

/-- A change of one port's contents keeps the canonical form. -/
theorem Ports.modify_wf {ps : Ports} (h : ps.wf = true) (p : Byte) (f : Port → Port) (hf : ∀ q, (f q).num = q.num) :
    (ps.modify p f).wf = true := modify_wfFrom p f hf h

theorem Ports.portOut_wf {ps : Ports} (h : ps.wf = true) (p v : Byte) : (ps.portOut p v).wf = true :=
  modify_wf h _ _ fun _ => rfl

theorem Ports.portInRest_wf {ps : Ports} (h : ps.wf = true) (p : Byte) : (ps.portInRest p).wf = true :=
  modify_wf h _ _ fun _ => rfl

theorem Ports.portOut_nums (ps : Ports) (p v : Byte) : (ps.portOut p v).map (fun q => q.num) = ps.map (fun q => q.num) :=
  modify_nums _ _ _ fun _ => rfl

theorem Ports.portInRest_nums (ps : Ports) (p : Byte) : (ps.portInRest p).map (fun q => q.num) = ps.map (fun q => q.num) :=
  modify_nums _ _ _ fun _ => rfl

end Sys2Proof.Machine
end

