-- ==== Sys2Proof/Laws/Step.lean ====
section
/-! SUPPORT. What a fetch decodes to, and everything a step can do, said once. -/

namespace Sys2Proof.Machine

/-! ## The bytes after the opcode -/

/-- The first operand byte, by its address (30_encoding.md R59). -/
theorem read_operand_one (m : Memory) (a : Addr) : m.read (a + 1).toNat = m.read (a.toNat + 1) :=
  Memory.read_congr m (by simp [BitVec.toNat_add])

/-- The second operand byte, by its address (30_encoding.md R59). -/
theorem read_operand_two (m : Memory) (a : Addr) : m.read (a + 1 + 1).toNat = m.read (a.toNat + 2) :=
  Memory.read_congr m (by simp [BitVec.toNat_add])

/-- The 249 opcode bytes without a format are those outside the seven (30_encoding.md R61, R62). -/
theorem formOf_eq_none_iff (op : Byte) : formOf op = none ↔ op ∉ supportedOpcodes := by
  rw [formOf_eq]
  simp only [supportedOpcodes, List.mem_cons, List.not_mem_nil, or_false]
  split_ifs <;> simp_all

/-! ## The fetched bytes -/

variable (s : State)

/-- The byte after the opcode (30_encoding.md R59). -/
theorem instrBytes_two (h : opcodeLength s.opcodeAt = 2) :
    s.instrBytes = [s.opcodeAt, s.mem.read (s.pc + 1).toNat] := by
  rw [State.instrBytes, h]; rfl

theorem decode_instrBytes_nop (h : s.opcodeAt = 0x00) : decode s.instrBytes = .ok (.nop, []) := by
  have hb : s.instrBytes = [s.opcodeAt] := by
    rw [State.instrBytes, h, show opcodeLength 0x00 = 1 from rfl, ← h]; rfl
  rw [hb, h]; rfl

theorem decode_instrBytes_hlt (h : s.opcodeAt = 0x76) : decode s.instrBytes = .ok (.hlt, []) := by
  have hb : s.instrBytes = [s.opcodeAt] := by
    rw [State.instrBytes, h, show opcodeLength 0x76 = 1 from rfl, ← h]; rfl
  rw [hb, h]; rfl

theorem decode_instrBytes_jmp (h : s.opcodeAt = 0xC3) :
    decode s.instrBytes = .ok (.jmp (hiLo (s.mem.read (s.pc + 1 + 1).toNat) (s.mem.read (s.pc + 1).toNat)), []) := by
  have hb : s.instrBytes = [s.opcodeAt, s.mem.read (s.pc + 1).toNat, s.mem.read (s.pc + 1 + 1).toNat] := by
    rw [State.instrBytes, h, show opcodeLength 0xC3 = 3 from rfl, ← h]; rfl
  rw [hb, h]; rfl

theorem decode_instrBytes_mviA (h : s.opcodeAt = 0x3E) :
    decode s.instrBytes = .ok (.mviA (s.mem.read (s.pc + 1).toNat), []) := by
  rw [instrBytes_two s (by rw [h]; rfl), h]; rfl

theorem decode_instrBytes_addB (h : s.opcodeAt = 0x80) : decode s.instrBytes = .ok (.addB, []) := by
  have hb : s.instrBytes = [s.opcodeAt] := by
    rw [State.instrBytes, h, show opcodeLength 0x80 = 1 from rfl, ← h]; rfl
  rw [hb, h]; rfl

theorem decode_instrBytes_out (h : s.opcodeAt = 0xD3) :
    decode s.instrBytes = .ok (.out (s.mem.read (s.pc + 1).toNat), []) := by
  rw [instrBytes_two s (by rw [h]; rfl), h]; rfl

theorem decode_instrBytes_inp (h : s.opcodeAt = 0xDB) :
    decode s.instrBytes = .ok (.inp (s.mem.read (s.pc + 1).toNat), []) := by
  rw [instrBytes_two s (by rw [h]; rfl), h]; rfl

/-- An unimplemented opcode is fetched alone and refused by name (30_encoding.md R60, R61). -/
theorem decode_instrBytes_unimplemented (h : formOf s.opcodeAt = none) :
    decode s.instrBytes = .error (.unimplemented s.opcodeAt) := by
  have hb : s.instrBytes = [s.opcodeAt] := by
    rw [State.instrBytes, opcodeLength, h]; rfl
  rw [hb, decode, h]

/-- The fetched bytes are one whole instruction, or an unimplemented opcode: the decoder's other errors never reach a step. -/
theorem decode_instrBytes :
    (∃ i, decode s.instrBytes = .ok (i, []) ∧ i.opcode = s.opcodeAt) ∨
      (formOf s.opcodeAt = none ∧ decode s.instrBytes = .error (.unimplemented s.opcodeAt)) := by
  by_cases h0 : s.opcodeAt = 0x00
  · exact .inl ⟨_, decode_instrBytes_nop s h0, h0.symm⟩
  by_cases h1 : s.opcodeAt = 0x76
  · exact .inl ⟨_, decode_instrBytes_hlt s h1, h1.symm⟩
  by_cases h2 : s.opcodeAt = 0xC3
  · exact .inl ⟨_, decode_instrBytes_jmp s h2, h2.symm⟩
  by_cases h3 : s.opcodeAt = 0x3E
  · exact .inl ⟨_, decode_instrBytes_mviA s h3, h3.symm⟩
  by_cases h4 : s.opcodeAt = 0x80
  · exact .inl ⟨_, decode_instrBytes_addB s h4, h4.symm⟩
  by_cases h5 : s.opcodeAt = 0xD3
  · exact .inl ⟨_, decode_instrBytes_out s h5, h5.symm⟩
  by_cases h6 : s.opcodeAt = 0xDB
  · exact .inl ⟨_, decode_instrBytes_inp s h6, h6.symm⟩
  have hf : formOf s.opcodeAt = none := by
    rw [formOf_eq, if_neg h0, if_neg h1, if_neg h2, if_neg h3, if_neg h4, if_neg h5, if_neg h6]
  exact .inr ⟨hf, decode_instrBytes_unimplemented s hf⟩

/-- Where the bytes of `i` stand at the pc, they are what is fetched. -/
theorem instrBytes_of_readRun {i : Instr} (h : Memory.readRun s.mem s.pc (encode i).length = encode i) :
    s.instrBytes = encode i := by
  have hop : s.opcodeAt = i.opcode := by
    have := congrArg List.head? h
    simpa [encode, State.opcodeAt] using this
  rw [State.instrBytes, hop, opcodeLength_opcode, h]

/-! ## The step -/

variable {s}

/-- A halted step (30_encoding.md R56). -/
theorem step_halted (h : s.status.halted = true) : step s = .next s.haltedNoOp := by simp [step, h]

/-- A step over fetched bytes that decode (30_encoding.md R57). -/
theorem step_of_decode {i : Instr} {r : List Byte} (h : s.status.halted = false) (hd : decode s.instrBytes = .ok (i, r)) :
    step s = finishStep (exec i s.fetchOpcode) := by simp [step, h, hd]

/-- A step over an unimplemented opcode (60_exceptions.md R81). -/
theorem step_of_unimplemented (h : s.status.halted = false) (hf : formOf s.opcodeAt = none) :
    step s = .next (s.fetchOpcode.raiseUnimplemented s.opcodeAt s.pc).drawStatus := by
  simp [step, h, decode_instrBytes_unimplemented s hf, finishStep]

theorem finishStep_next {o : Host.Outcome State Fault Refusal} {t : State} :
    finishStep o = .next t ↔ ∃ u, o = .next u ∧ t = u.drawStatus := by
  cases o <;> simp [finishStep, eq_comm]

/-- Everything a step can do: nothing when halted; one operation between the fetch and the draw; or the fail-stop. -/
theorem step_cases {t : State} (h : step s = .next t) :
    (s.status.halted = true ∧ t = s.haltedNoOp) ∨
    (s.status.halted = false ∧ ∃ i u, decode s.instrBytes = .ok (i, []) ∧ i.opcode = s.opcodeAt ∧
      exec i s.fetchOpcode = .next u ∧ t = u.drawStatus) ∨
    (s.status.halted = false ∧ formOf s.opcodeAt = none ∧
      t = (s.fetchOpcode.raiseUnimplemented s.opcodeAt s.pc).drawStatus) := by
  cases hh : s.status.halted with
  | true =>
    rw [step_halted hh] at h
    exact .inl ⟨rfl, (Host.Outcome.next.inj h).symm⟩
  | false =>
    obtain ⟨i, hi, hop⟩ | ⟨hf, -⟩ := decode_instrBytes s
    · rw [step_of_decode hh hi, finishStep_next] at h
      obtain ⟨u, hu, rfl⟩ := h
      exact .inr (.inl ⟨rfl, i, u, hi, hop, hu, rfl⟩)
    · rw [step_of_unimplemented hh hf] at h
      exact .inr (.inr ⟨rfl, hf, (Host.Outcome.next.inj h).symm⟩)

/-! ## The operations: what each meaning answers -/

/-- What an operation answers, as a function of the instruction. -/
theorem exec_cases {i : Instr} {t : State} (h : exec i s = .next t) :
    (i = .nop ∧ t = s.returns 1) ∨ (i = .hlt ∧ t = s.halt.returns 1) ∨
    (∃ a, i = .jmp a ∧ t = (s.skipOperand.skipOperand.setPc a).returns 3) ∨
    (∃ d, i = .mviA d ∧ t = (s.skipOperand.setA d).returns 2) ∨
    (i = .addB ∧ t = ((s.setA (BitVec.ofNat 8 s.sumAB)).setFlags (flagsOf s.sumAB)).returns 1) ∨
    (∃ p, i = .out p ∧ t = (s.skipOperand.setPorts (s.ports.portOut p (s.reg .A))).markOutput.returns 2) ∨
    (∃ p, i = .inp p ∧
      t = ((s.skipOperand.setPorts (s.ports.portInRest p)).setA (s.ports.portInByte p)).markInput.returns 2) := by
  cases i <;> cases h <;> simp

/-- One step more of the host's run. -/
theorem core_run_succ (n : Nat) {t : State} (h : step s = .next t) : Sys2Proof.core.run (n + 1) s = Sys2Proof.core.run n t := by
  have h' : Sys2Proof.core.step s = .next t := h
  simp only [Host.Core.run]
  rw [h']

/-- A run without actions stays; with one, the action comes first. -/
@[simp] theorem hostRun_nil : hostRun [] s = .next s := rfl

theorem hostRun_cons {a : HostAction} {acts : List HostAction} {t : State} :
    hostRun (a :: acts) s = .next t ↔ ∃ u, hostAct a s = .next u ∧ hostRun acts u = .next t := by
  simp only [hostRun]
  cases hostAct a s <;> simp

/-- A property that every action keeps holds at the end of every run. -/
theorem hostRun_keeps {P : State → Prop} (hP : ∀ a s t, hostAct a s = .next t → P s → P t) {acts : List HostAction} {t : State}
    (h : hostRun acts s = .next t) (hs : P s) : P t := by
  induction acts generalizing s with
  | nil => exact Host.Outcome.next.inj h ▸ hs
  | cons a acts ih =>
    obtain ⟨u, hu, ht⟩ := hostRun_cons.1 h
    exact ih ht (hP a s u hu hs)

end Sys2Proof.Machine
end

