-- ==== Sys2Proof/Tests/Slice0.lean ====
section
/-! SUPPORT. The model's own tests: decoding of words written out from 30_encoding.md R55, the checks of WellFormed, one step on small states
with results from 95_test_vectors.md, and for each statement with hypotheses a witness that they can be met. -/

namespace Sys2Proof.Tests

open Sys2Proof Sys2Proof.Machine

/-! ## Helpers -/

/-- A running machine with the pc at `pc`, the memory `mem`, and port 0x01 wired (the vectors' assumption) with a FIFO. -/
def mk (pc : Addr) (mem : Memory) (fifo : List Byte) : State :=
  { State.powerOn ResetRegs.zero mem [{ num := 0x01, fifo := fifo, sink := [] }] with pc := pc }

/-- The same with values in A and B. -/
def mkAB (a b : Byte) (mem : Memory) : State :=
  { mk 0x0000 mem [] with regs := { ResetRegs.zero.regs with a := a, b := b } }

/-- A field of the state that a step answers. -/
def after {α : Type} (f : State → α) (o : Host.Outcome State Fault Refusal) : Option α :=
  match o with
  | .next t => some (f t)
  | .fault _ => none
  | .refused _ => none

/-- What a decode answers, in a form that can be compared. -/
def decoded (bytes : List Byte) : Option (Instr × List Byte) :=
  match decode bytes with
  | .ok r => some r
  | .error _ => none

/-! ## Decoding: the bits of 30_encoding.md R55, operands of R59 -/

theorem test_decode_nop : decoded [0b00000000] = some (.nop, []) := by decide
theorem test_decode_hlt : decoded [0b01110110] = some (.hlt, []) := by decide
theorem test_decode_jmp : decoded [0b11000011, 0x34, 0x12] = some (.jmp 0x1234, []) := by decide
theorem test_decode_mviA : decoded [0b00111110, 0x42] = some (.mviA 0x42, []) := by decide
theorem test_decode_addB : decoded [0b10000000] = some (.addB, []) := by decide
theorem test_decode_out : decoded [0b11010011, 0x01] = some (.out 0x01, []) := by decide
theorem test_decode_inp : decoded [0b11011011, 0xFF] = some (.inp 0xFF, []) := by decide
theorem test_decode_unimplemented : (decode [0x08]).toOption = none := by decide
theorem test_decode_table_word_jmp : decodeTableWord 24 0x1234C3 = some (.jmp 0x1234) := by decide
theorem test_decode_table_word_short : decodeTableWord 8 0xFFFFC3 = some (.jmp 0x0000) := by decide
theorem test_opcodes_distinct : (opcodeTable.map Prod.fst).Nodup := by decide

/-! ## WellFormed: a term each check refuses (30_encoding.md R64) -/

theorem test_wf_jmp_address : (AsmStmt.jmp 65536).wellFormed = false := by decide
theorem test_wf_mvi_register : (AsmStmt.mvi .B 0x42).wellFormed = false := by decide
theorem test_wf_mvi_value : (AsmStmt.mvi .A 256).wellFormed = false := by decide
theorem test_wf_add_register : (AsmStmt.add .A).wellFormed = false := by decide
theorem test_wf_out_port : (AsmStmt.out 256).wellFormed = false := by decide
theorem test_wf_inp_port : (AsmStmt.inp 256).wellFormed = false := by decide
theorem test_wf_org_address : (AsmStmt.org 65536).wellFormed = false := by decide
theorem test_wf_db_byte : (AsmStmt.db [0, 256]).wellFormed = false := by decide
theorem test_wf_every_instr (i : Instr) : i.wellFormed = true := by cases i <;> rfl
theorem test_assemble_p3 :
    assemble 0 [.org 0, .jmp 0x8000, .org 0x8000, .mvi .A 0xC0, .add .B, .hlt] =
      some [(0, []), (0, [0xC3, 0x00, 0x80]), (0x8000, []), (0x8000, [0x3E, 0xC0]), (0x8002, [0x80]), (0x8003, [0x76])] := by decide

/-- The spellings of P1 and P3. -/
theorem test_asm_text :
    (Instr.mviA 0xC0).toAsm.text = "MVI A,0C0H".toList ∧ (Instr.jmp 0x8000).toAsm.text = "JMP 8000H".toList ∧
    (Instr.out 0x01).toAsm.text = "OUT 01H".toList ∧ (AsmStmt.db [0x01, 0xFF]).text = "DB 01H,0FFH".toList := by decide

/-! ## One step (the vector's name in each comment) -/

/-- C2 -/
theorem test_nop_wraps : after (fun t => (t.pc, t.ret)) (step (mk 0xFFFF [] [])) = some (0x0000, 1) := by decide
/-- C3 -/
theorem test_hlt : after (fun t => (t.pc, t.status.halted, t.ret)) (step (mk 0x0005 [(5, 0x76)] [])) = some (0x0006, true, 1) := by decide
/-- C4 -/
theorem test_halted_step :
    after (fun t => (t.pc, t.ret, t.draws)) (step { mk 0x0006 [(6, 0x3E)] [] with status := { State.reset.status with halted := true } }) =
      some (0x0006, 0, 1) := by decide
/-- S1, C5 -/
theorem test_jmp : after (fun t => (t.pc, t.ret)) (step (mk 0x0000 [(0, 0xC3), (1, 0x34), (2, 0x12)] [])) = some (0x1234, 3) := by decide
/-- C6 -/
theorem test_jmp_operand_wraps : after (fun t => t.pc) (step (mk 0xFFFE [(0, 0x80), (0xFFFE, 0xC3)] [])) = some 0x8000 := by decide
/-- M2 -/
theorem test_mvi_wraps :
    after (fun t => (t.regs.a, t.pc, t.ret)) (step (mk 0xFFFF [(0, 0x99), (0xFFFF, 0x3E)] [])) = some (0x99, 0x0001, 2) := by decide
/-- M3 -/
theorem test_mvi_leaves_flags :
    after (fun t => (t.regs.a, t.flags.z)) (step (mkAB 0x55 0 [(0, 0x3E)])) = some (0x00, false) := by decide
/-- S2, A1 -/
theorem test_add_carry_and_zero :
    after (fun t => (t.regs.a, t.flags, t.pc, t.ret)) (step (mkAB 0xFF 0x01 [(0, 0x80)])) =
      some (0x00, { z := true, s := false, p := true, cy := true }, 0x0001, 1) := by decide
/-- A7 -/
theorem test_add_maximum :
    after (fun t => (t.regs.a, t.regs.b, t.flags)) (step (mkAB 0xFF 0xFF [(0, 0x80)])) =
      some (0xFE, 0xFF, { z := false, s := true, p := false, cy := true }) := by decide
/-- O1 -/
theorem test_out_wired :
    after (fun t => (t.ports, t.status.output, t.pc, t.ret)) (step (mkAB 0x48 0 [(0, 0xD3), (1, 0x01)])) =
      some ([{ num := 0x01, fifo := [], sink := [0x48] }], true, 0x0002, 2) := by decide
/-- O2 -/
theorem test_out_unwired :
    after (fun t => (t.ports, t.status.output)) (step (mkAB 0x48 0 [(0, 0xD3), (1, 0x02)])) =
      some ([{ num := 0x01, fifo := [], sink := [] }], true) := by decide
/-- I1 -/
theorem test_in_pops_oldest :
    after (fun t => (t.regs.a, t.ports, t.status.input, t.pc, t.ret)) (step (mk 0x0000 [(0, 0xDB), (1, 0x01)] [0x41, 0x42])) =
      some (0x41, [{ num := 0x01, fifo := [0x42], sink := [] }], true, 0x0002, 2) := by decide
/-- I3 -/
theorem test_in_unwired :
    after (fun t => (t.regs.a, t.ports)) (step { mk 0x0000 [(0, 0xDB), (1, 0x02)] [0x41] with regs := { ResetRegs.zero.regs with a := 0x77 } }) =
      some (0x00, [{ num := 0x01, fifo := [0x41], sink := [] }]) := by decide
/-- U1 -/
theorem test_unimplemented :
    after (fun t => (t.log, t.status.halted, t.pc)) (step (mk 0x0200 [(0x200, 0x08)] [])) =
      some ([{ opcode := 0x08, address := 0x0200 }], true, 0x0201) := by decide
/-- U3 -/
theorem test_unimplemented_wraps :
    after (fun t => (t.log, t.pc)) (step (mk 0xFFFF [(0xFFFF, 0xFF)] [])) = some ([{ opcode := 0xFF, address := 0xFFFF }], 0x0000) := by decide
/-- R1 -/
theorem test_reset :
    (fun t : State => (t.pc, t.status.halted, t.status.inte, t.mem))
      (State.hostReset { mk 0x0201 [(0x200, 0x08)] [] with status := { State.reset.status with halted := true } } ResetRegs.zero) =
      (0x0000, false, false, [(0x200, 0x08)]) := by decide
/-- S4 -/
theorem test_write_wraps : (State.reset.hostWrite 0x10000 0x1FF).mem = [(0, 0xFF)] := by decide
/-- The write of the unlisted byte removes the entry (log 3). -/
theorem test_write_unlisted_removes : Memory.write [(3, 0x11), (5, 0x22)] 3 0x100 = [(5, 0x22)] := by decide
/-- The host's question: the word of MVI A, run first after reset. -/
theorem test_fetch_word : after (fun t => (t.regs.a, t.pc)) (step (State.reset.withFetchWord 16 0x423E)) = some (0x42, 0x0002) := by decide

/-! ## Witnesses: the hypotheses of each statement are met by a concrete state and operands -/

/-- The ends of the sum's range, and both sides of the carry's boundary. -/
theorem witness_FlagUpdate :
    0 ≤ 510 ∧ 255 ≤ 510 ∧ 256 ≤ 510 ∧ 510 ≤ 510 ∧ (∃ t, exec .addB (mkAB 0xFF 0xFF []) = .next t) ∧ (∃ t, exec .nop (mk 0 [] []) = .next t) :=
  ⟨by decide, by decide, by decide, by decide, ⟨_, rfl⟩, ⟨_, rfl⟩⟩
theorem witness_PortOutAppendsOrDoesNothing :
    Ports.find [{ num := 0xFF, fifo := [], sink := [] }] 0xFF = some { num := 0xFF, fifo := [], sink := [] } ∧
    Ports.find [{ num := 0xFF, fifo := [], sink := [] }] 0x00 = none ∧ (0x00 : Byte) ≠ 0xFF := by decide
theorem witness_PortInPopsTheOldestByte :
    Ports.find [{ num := 0x00, fifo := [], sink := [] }] 0x00 = some { num := 0x00, fifo := [], sink := [] } ∧
    Ports.find [{ num := 0xFF, fifo := [0x41], sink := [] }] 0xFF = some { num := 0xFF, fifo := 0x41 :: [], sink := [] } := by decide
theorem witness_ExecOutAppendsToWiredSink :
    Ports.find (mk 0 [] []).ports 0x01 = some { num := 0x01, fifo := [], sink := [] } ∧ Ports.find (mk 0 [] []).ports 0x02 = none := by decide
theorem witness_ExecInpPopsOldestByte :
    Ports.find (mk 0 [] [0x41]).ports 0x01 = some { num := 0x01, fifo := 0x41 :: [], sink := [] } ∧
    Ports.find (mk 0 [] []).ports 0x01 = some { num := 0x01, fifo := [], sink := [] } ∧ Ports.find (mk 0 [] []).ports 0xFF = none := by decide
theorem witness_FrameOfOperationsWithoutPorts :
    (∃ t, exec .nop (mk 0 [] []) = .next t) ∧ (∃ t, exec .hlt (mk 0 [] []) = .next t) ∧ (∃ t, exec (.jmp 0xFFFF) (mk 0 [] []) = .next t) ∧
    (∃ t, exec (.mviA 0xFF) (mk 0 [] []) = .next t) ∧ (∃ t, exec .addB (mkAB 0xFF 0x01 []) = .next t) :=
  ⟨⟨_, rfl⟩, ⟨_, rfl⟩, ⟨_, rfl⟩, ⟨_, rfl⟩, ⟨_, rfl⟩⟩
theorem witness_FrameOfPortOperations :
    (∃ t, exec (.out 0x01) (mk 0 [] []) = .next t) ∧ (∃ t, exec (.inp 0x01) (mk 0 [] [0x41]) = .next t) := ⟨⟨_, rfl⟩, ⟨_, rfl⟩⟩
theorem witness_HaltedStepDoesNothing : ({ mk 0 [] [] with status := { State.reset.status with halted := true } } : State).status.halted = true := by
  decide
theorem witness_StepRunsTheDecodedInstruction :
    ∃ t, (mk 0xFFFF [(0, 0x34), (1, 0x12), (0xFFFF, 0xC3)] []).status.halted = false ∧
      Memory.readRun (mk 0xFFFF [(0, 0x34), (1, 0x12), (0xFFFF, 0xC3)] []).mem 0xFFFF (encode (.jmp 0x1234)).length = encode (.jmp 0x1234) ∧
      exec (.jmp 0x1234) (mk 0xFFFF [(0, 0x34), (1, 0x12), (0xFFFF, 0xC3)] []).fetchOpcode = .next t := ⟨_, by decide, by decide, rfl⟩
theorem witness_StepNop : (mk 0xFFFF [] []).status.halted = false ∧ (mk 0xFFFF [] []).mem.read 0xFFFF = 0x00 := by decide
theorem witness_StepHltHaltsUntilReset :
    (mk 0xFFFF [(0xFFFF, 0x76)] []).status.halted = false ∧ (mk 0xFFFF [(0xFFFF, 0x76)] []).mem.read 0xFFFF = 0x76 ∧
    (∀ a ∈ [HostAction.step, .write 0 0xDB, .step], a.isReset = false) ∧
    (∃ u, hostRun [.step, .write 0 0xDB, .step] ((mk 0 [] []).halt) = .next u) := ⟨by decide, by decide, by decide, ⟨_, rfl⟩⟩
/-- The jump to itself at 0x0100 (vector C8) meets the inner hypothesis too. -/
theorem witness_StepJmp :
    (mk 0x0100 [(0x100, 0xC3), (0x102, 0x01)] []).status.halted = false ∧
    (mk 0x0100 [(0x100, 0xC3), (0x102, 0x01)] []).mem.read 0x0100 = 0xC3 ∧
    after (fun t => t.pc) (step (mk 0x0100 [(0x100, 0xC3), (0x102, 0x01)] [])) = some 0x0100 := by decide
theorem witness_StepMviA : (mk 0xFFFF [(0xFFFF, 0x3E)] []).status.halted = false ∧ (mk 0xFFFF [(0xFFFF, 0x3E)] []).mem.read 0xFFFF = 0x3E := by
  decide
theorem witness_StepAddB : (mkAB 0xFF 0x01 [(0, 0x80)]).status.halted = false ∧ (mkAB 0xFF 0x01 [(0, 0x80)]).mem.read 0 = 0x80 := by decide
theorem witness_StepOut :
    (mk 0xFFFF [(0, 0x01), (0xFFFF, 0xD3)] []).status.halted = false ∧ (mk 0xFFFF [(0, 0x01), (0xFFFF, 0xD3)] []).mem.read 0xFFFF = 0xD3 ∧
    Ports.find (mk 0xFFFF [(0, 0x01), (0xFFFF, 0xD3)] []).ports 0x01 = some { num := 0x01, fifo := [], sink := [] } ∧
    Ports.find (mk 0xFFFF [(0xFFFF, 0xD3)] []).ports 0x00 = none := by decide
theorem witness_StepIn :
    (mk 0xFFFF [(0, 0x01), (0xFFFF, 0xDB)] [0x5A]).status.halted = false ∧
    (mk 0xFFFF [(0, 0x01), (0xFFFF, 0xDB)] [0x5A]).mem.read 0xFFFF = 0xDB ∧
    Ports.find (mk 0xFFFF [(0, 0x01), (0xFFFF, 0xDB)] [0x5A]).ports 0x01 = some { num := 0x01, fifo := 0x5A :: [], sink := [] } ∧
    Ports.find (mk 0xFFFF [(0, 0x01), (0xFFFF, 0xDB)] []).ports 0x01 = some { num := 0x01, fifo := [], sink := [] } ∧
    Ports.find (mk 0xFFFF [(0xFFFF, 0xDB)] []).ports 0x00 = none := by decide
/-- Bytes next to supported ones are outside the set (30_encoding.md R61's range ends). -/
theorem witness_StepUnimplementedFailStops :
    (mk 0xFFFF [(0xFFFF, 0xFF)] []).status.halted = false ∧ (mk 0xFFFF [(0xFFFF, 0xFF)] []).mem.read 0xFFFF ∉ supportedOpcodes ∧
    (∀ op ∈ ([0x01, 0x3D, 0x3F, 0x75, 0x77, 0x7F, 0x81, 0xC2, 0xC4, 0xD2, 0xD4, 0xDA, 0xDC, 0xFF] : List Byte), op ∉ supportedOpcodes) := by
  decide
/-- Each clause of the table at 0xFFFF, where the pc wraps: halted, JMP, a two-byte instruction, a one-byte instruction, the fail-stop. -/
theorem witness_PcAfterEveryStep :
    (∃ t, step (mk 0xFFFF [] []).halt = .next t) ∧ (∃ t, step (mk 0xFFFF [(0xFFFF, 0xC3)] []) = .next t) ∧
    (∃ t, step (mk 0xFFFF [(0xFFFF, 0xDB)] []) = .next t) ∧ (∃ t, step (mk 0xFFFF [(0xFFFF, 0x80)] []) = .next t) ∧
    (∃ t, step (mk 0xFFFF [(0xFFFF, 0xFF)] []) = .next t) := ⟨⟨_, rfl⟩, ⟨_, rfl⟩, ⟨_, rfl⟩, ⟨_, rfl⟩, ⟨_, rfl⟩⟩
theorem witness_CycleCostTable :
    (∃ t, step (mk 0 [] []).halt = .next t) ∧ (∃ t, step (mk 0 [] []) = .next t) ∧ (∃ t, step (mk 0 [(0, 0x76)] []) = .next t) ∧
    (∃ t, step (mk 0 [(0, 0xC3)] []) = .next t) ∧ (∃ t, step (mk 0 [(0, 0x3E)] []) = .next t) ∧ (∃ t, step (mk 0 [(0, 0x80)] []) = .next t) ∧
    (∃ t, step (mk 0 [(0, 0xD3)] []) = .next t) ∧ (∃ t, step (mk 0 [(0, 0xDB)] []) = .next t) ∧ (∃ t, step (mk 0 [(0, 0xDA)] []) = .next t) :=
  ⟨⟨_, rfl⟩, ⟨_, rfl⟩, ⟨_, rfl⟩, ⟨_, rfl⟩, ⟨_, rfl⟩, ⟨_, rfl⟩, ⟨_, rfl⟩, ⟨_, rfl⟩, ⟨_, rfl⟩⟩
theorem witness_InputAndOutputSignals :
    (∃ t, step (mk 0 [(0, 0xDB)] []) = .next t) ∧ (∃ t, step (mk 0 [(0, 0xD3)] []) = .next t) ∧
    (∃ t, step (mk 0 [(0, 0x76)] []) = .next t ∧ t.status.halted = true) ∧ (∃ t, step (mk 0 [] []).halt = .next t) :=
  ⟨⟨_, rfl⟩, ⟨_, rfl⟩, ⟨_, rfl, rfl⟩, ⟨_, rfl⟩⟩
theorem witness_DrawnSignals : (mk 0 [] []).status.halted = false ∧ ∃ t, step (mk 0 [] []) = .next t := ⟨rfl, ⟨_, rfl⟩⟩
theorem witness_FlagsAreWrittenByAddBAlone :
    (∃ t, step (mkAB 0xFF 0x01 [(0, 0x80)]) = .next t) ∧ (mkAB 0xFF 0x01 [(0, 0x80)]).mem.read 0 = 0x80 ∧
    (∃ t, step (mk 0 [(0, 0x3E)] []) = .next t) ∧ (mk 0 [(0, 0x3E)] []).mem.read 0 ≠ 0x80 ∧ (∃ t, step (mk 0 [] []).halt = .next t) ∧
    (∃ u, hostAct (.write 0 0) (mk 0 [] []) = .next u) := ⟨⟨_, rfl⟩, by decide, ⟨_, rfl⟩, by decide, ⟨_, rfl⟩, ⟨_, rfl⟩⟩
theorem witness_OnlyResetWritesGeneralRegisters :
    (∃ t, hostAct .step (mk 0 [(0, 0x80)] []) = .next t) ∧ (∃ t, hostAct (.reset ResetRegs.zero) (mk 0 [] []) = .next t) := ⟨⟨_, rfl⟩, ⟨_, rfl⟩⟩
theorem witness_OnlyResetActsOnTheEngineFromOutside :
    (∃ t, hostAct .step (mk 0 [] []).halt = .next t) ∧ (∃ t, hostAct (.loadProgram 0xFFFF [0xC3, 0x100]) (mk 0 [] []) = .next t) ∧ (∃ t, hostAct (.enqueue 0x01 [0x41]) (mk 0 [] []) = .next t) :=
  ⟨⟨_, rfl⟩, ⟨_, rfl⟩, ⟨_, rfl⟩⟩
/-- A memory that differs from the machine's own outside the instruction at the pc. -/
theorem witness_EngineNeverWritesMemory :
    (∃ t, step (mk 0 [(0, 0x3E), (1, 0x42)] []) = .next t) ∧
    (∀ k < opcodeLength ((mk 0 [(0, 0x3E), (1, 0x42)] []).mem.read 0),
      Memory.read [(0, 0x3E), (1, 0x42), (2, 0x76)] k = (mk 0 [(0, 0x3E), (1, 0x42)] []).mem.read k) := ⟨⟨_, rfl⟩, by decide⟩
theorem witness_ReportLogIsWriteOnly : ∃ t, hostAct .step (mk 0 [(0, 0x08)] []) = .next t := ⟨_, rfl⟩
/-- Both branches: an unimplemented opcode beside a supported one, and a supported one. -/
theorem witness_ReportsComeFromUnimplementedOpcodes :
    (∃ t, hostAct .step (mk 0xFFFF [(0xFFFF, 0x3F)] []) = .next t) ∧ (mk 0xFFFF [(0xFFFF, 0x3F)] []).mem.read 0xFFFF ∉ supportedOpcodes ∧
    (∃ t, hostAct .step (mk 0xFFFF [(0xFFFF, 0x3E)] []) = .next t) := ⟨⟨_, rfl⟩, by decide, ⟨_, rfl⟩⟩
theorem witness_HaltsAreHltOrFailStop :
    (∃ t, HaltsAt (mk 0 [(0, 0x76)] []) t ∧ t.log = []) ∧ (∃ t, HaltsAt (mk 0 [(0, 0x08)] []) t ∧ t.log ≠ []) :=
  ⟨⟨_, ⟨rfl, rfl, rfl⟩, rfl⟩, ⟨_, ⟨rfl, rfl, rfl⟩, by decide⟩⟩
theorem witness_HaltedStateKeepsEverythingUntilReset :
    (mk 0 [] []).halt.status.halted = true ∧ (∀ a ∈ [HostAction.write 0 0xDB, .enqueue 0x01 [0x41], .step], a.isReset = false) ∧
    (∃ t, hostRun [.write 0 0xDB, .enqueue 0x01 [0x41], .step] (mk 0 [] []).halt = .next t) := ⟨rfl, by decide, ⟨_, rfl⟩⟩
/-- Two states that differ in SP and in the flags. -/
theorem witness_UnreadStateHasNoInfluence :
    AgreeOnRead (mk 0 [(0, 0x80)] []) { mk 0 [(0, 0x80)] [] with sp := 0xFFFF, flags := { z := true, s := true, p := true, cy := true } } ∧
    (∃ t, hostRun [.step, .step] (mk 0 [(0, 0x80)] []) = .next t) := ⟨⟨rfl, rfl, rfl, rfl, rfl, rfl, rfl⟩, ⟨_, rfl⟩⟩
theorem witness_OnlyOutAndInReachPorts :
    (∃ t, step (mk 0 [(0, 0xD3), (1, 0x01)] []) = .next t) ∧ (∃ t, step (mk 0 [(0, 0xDB), (1, 0x01)] [0x41]) = .next t) ∧
    (∃ t, step (mk 0 [] []) = .next t) ∧ (∃ t, step (mk 0 [] []).halt = .next t) ∧
    Ports.find (mk 0 [(0, 0xD3)] []).ports 0x01 = some { num := 0x01, fifo := [], sink := [] } ∧
    (0x01 : Byte) ≠ (mk 0 [(0, 0xD3)] []).mem.read 1 := ⟨⟨_, rfl⟩, ⟨_, rfl⟩, ⟨_, rfl⟩, ⟨_, rfl⟩, by decide, by decide⟩
theorem witness_WiringNeverChanges : ∃ t, hostRun [.enqueue 0x01 [0x41], .step, .takeOutput 0x01 1] (mk 0 [(0, 0xDB), (1, 0x01)] []) = .next t :=
  ⟨_, rfl⟩
theorem witness_QueuedBytesComeOutInOrder : Ports.find (mk 0 [] [0x41]).ports 0x01 = some { num := 0x01, fifo := [0x41], sink := [] } := by decide
theorem witness_HostWriteMasksValueAndAddress : (mk 0 [(0, 0x11), (0xFFFF, 0x22)] []).mem.wf = true := by decide
/-- The last byte of a load across the wrap: no later byte falls on its address; an address the load does not touch. -/
theorem witness_LoadProgramPlacesEveryByte :
    (mk 0 [(5, 0x11)] []).mem.wf = true ∧ (∀ j, 1 < j → j < [0x3E, 0x42].length → (0xFFFF + j) % 65536 ≠ (0xFFFF + 1) % 65536) ∧
    (∀ k < [0x3E, 0x42].length, 5 % 65536 ≠ (0xFFFF + k) % 65536) :=
  ⟨by decide, fun j h h' => absurd h' (by simp only [List.length_cons, List.length_nil]; omega), by decide⟩
theorem witness_MemoriesThatReadAlikeAreEqual :
    Memory.wf [(0, 0x11), (0xFFFF, 0x22)] = true ∧
    ∀ a < 65536, Memory.read [(0, 0x11), (0xFFFF, 0x22)] a = Memory.read (Memory.write (Memory.write [] 0xFFFF 0x22) 0 0x11) a :=
  ⟨by decide, fun _ _ => rfl⟩
theorem witness_PlacedInstructionRunsNext : State.reset.mem.wf = true := by decide
theorem witness_ResetMeetsInvariant : Memory.wf [(0, 0xC3), (0xFFFF, 0x01)] = true ∧
    Ports.wf [{ num := 0x00, fifo := [], sink := [] }, { num := 0xFF, fifo := [0x41], sink := [] }] = true := by decide
/-- A state after an IN, with its signal set, meets the invariant and steps. -/
theorem witness_StepKeepsInvariant :
    (mk 0 [(0, 0xDB)] [0x41]).markInput.Inv ∧ ∃ t, step (mk 0 [(0, 0xDB)] [0x41]).markInput = .next t := ⟨⟨rfl, rfl, rfl⟩, ⟨_, rfl⟩⟩
theorem witness_HostRunKeepsInvariant :
    (mk 0 [] []).Inv ∧ ∃ t, hostRun [.loadProgram 0xFFFF [0x76, 0x00], .step, .reset ResetRegs.zero, .step] (mk 0 [] []) = .next t :=
  ⟨⟨rfl, rfl, rfl⟩, ⟨_, rfl⟩⟩
theorem witness_OpcodeDecidesLengthAndSupport : (0xDB : Byte) ∈ supportedOpcodes ∧ (0xDC : Byte) ∉ supportedOpcodes := by decide
theorem witness_AssemblerSpellings : 0xFFFF < 65536 ∧ 0xFF < 256 ∧ Reg.B ≠ .A ∧ Reg.A ≠ .B := by decide

end Sys2Proof.Tests
end

section
/-! The statements of 20_memory.md: the port primitives PortOut and PortIn (R45, R46), and the host's memory write (R36). -/

namespace Sys2Proof.Machine

/-! ## The FIFO of a port, empty and nonempty -/

theorem Port.front_of_fifo_nil {q : Port} (h : q.fifo = []) : q.front = 0x00 := by
  rw [Port.front, h, List.headD_nil]

theorem Port.front_of_fifo_cons {q : Port} {v : Byte} {rest : List Byte} (h : q.fifo = v :: rest) : q.front = v := by
  rw [Port.front, h, List.headD_cons]

theorem Port.pop_of_fifo_nil {q : Port} (h : q.fifo = []) : q.pop = q := by
  rw [Port.pop, h, List.tail_nil, ← h]

theorem Port.pop_of_fifo_cons {q : Port} {v : Byte} {rest : List Byte} (h : q.fifo = v :: rest) :
    q.pop = { q with fifo := rest } := by
  rw [Port.pop, h, List.tail_cons]

/-! ## PortOut and PortIn on the whole port space -/

theorem Ports.portOut_unwired {ps : Ports} {p : Byte} (h : Ports.find ps p = none) (v : Byte) : ps.portOut p v = ps :=
  Ports.modify_unwired ps p _ h

/-- Settles O7: the law of PortOut at its own port, at another port, and at an unwired one. -/
theorem portOutAppendsOrDoesNothing : Obligations.PortOutAppendsOrDoesNothing := fun ps _ v =>
  ⟨fun _ hq => Ports.find_portOut_same hq v, fun _ hne => Ports.find_portOut_other ps hne v, fun hp => Ports.portOut_unwired hp v⟩

/-- Settles O8: PortIn gives the front of the port's FIFO and leaves the popped port, in the two cases of the FIFO. -/
theorem portInPopsTheOldestByte : Obligations.PortInPopsTheOldestByte := by
  intro ps p q hq
  have hbyte : ps.portInByte p = q.front := Ports.portInByte_wired hq
  have hrest : Ports.find (ps.portInRest p) p = some q.pop := Ports.find_portInRest_same hq
  refine ⟨fun hnil => ?_, fun v rest hcons => ?_, fun p' hne => Ports.find_portInRest_other ps hne⟩
  · exact ⟨hbyte.trans (Port.front_of_fifo_nil hnil), by rw [hrest, Port.pop_of_fifo_nil hnil]⟩
  · exact ⟨hbyte.trans (Port.front_of_fifo_cons hcons), by rw [hrest, Port.pop_of_fifo_cons hcons]⟩

/-! ## The host's write -/

/-- The host reads, at every address, the byte last written there modulo 256 (20_memory.md R35, R36). -/
theorem State.hostRead_hostWrite {s : State} (hm : s.mem.wf = true) (addr value a : Nat) :
    (s.hostWrite addr value).hostRead a =
      if a % 65536 = addr % 65536 then BitVec.ofNat 8 (value % 256) else s.hostRead a := by
  have hbyte : BitVec.ofNat 8 (value % 256) = BitVec.ofNat 8 value := BitVec.eq_of_toNat_eq (by simp)
  rw [hbyte]
  exact Memory.read_write hm addr value a

/-- Settles O40: a host read after a host write; R36's example is the write at the address 0x10000, which wraps to 0x0000. -/
theorem hostWriteMasksValueAndAddress : Obligations.HostWriteMasksValueAndAddress := by
  intro s addr value hm
  refine ⟨State.hostRead_hostWrite hm addr value, ?_, rfl⟩
  rw [State.hostRead_hostWrite hm, if_pos (by decide)]
  decide

end Sys2Proof.Machine
end

section
/-! The statements of 40_control.md: JMP as a whole step, and the jump to itself (R69). -/

namespace Sys2Proof.Machine

/-! ## One JMP step -/

/-- The little-endian 16-bit operand after the opcode (40_control.md R69). -/
def State.operandAddr (s : State) : Addr := hiLo (s.mem.read (s.pc + 1 + 1).toNat) (s.mem.read (s.pc + 1).toNat)

/-- The operand by the addresses of its two bytes, modulo 65536 (20_memory.md R35). -/
theorem State.toNat_operandAddr (s : State) :
    s.operandAddr.toNat = (s.mem.read (s.pc.toNat + 2)).toNat * 256 + (s.mem.read (s.pc.toNat + 1)).toNat := by
  rw [State.operandAddr, toNat_hiLo, read_operand_two, read_operand_one]

/-- The state after the step of a JMP: the fetch, the jump, the status draw (30_encoding.md R57). -/
def State.afterJmp (s : State) : State := ((s.fetchOpcode.setPc s.operandAddr).returns 3).drawStatus

theorem step_jmp {s : State} (hrun : s.status.halted = false) (hop : s.opcodeAt = 0xC3) : step s = .next s.afterJmp :=
  step_of_decode hrun (decode_instrBytes_jmp s hop)

/-! ## The jump to itself -/

/-- A running machine whose next instruction is a JMP to its own address: what every step of the hang keeps. -/
structure State.JumpsToSelf (s : State) : Prop where
  running : s.status.halted = false
  opcode : s.opcodeAt = 0xC3
  target : s.operandAddr = s.pc

/-- A JMP to itself fetches the same bytes again: the pc and the memory are as before. -/
theorem State.JumpsToSelf.afterJmp {s : State} (h : s.JumpsToSelf) : s.afterJmp.JumpsToSelf ∧ s.afterJmp.pc = s.pc := by
  have hpc : s.afterJmp.pc = s.pc := h.target
  have hmem : s.afterJmp.mem = s.mem := rfl
  refine ⟨⟨h.running, ?_, ?_⟩, hpc⟩
  · rw [State.opcodeAt, hpc, hmem]
    exact h.opcode
  · rw [State.operandAddr, hpc, hmem]
    exact h.target

/-- Any positive number of steps of a JMP to itself ends at the same pc, still running, the last step having returned 3. -/
theorem State.JumpsToSelf.run {s : State} (h : s.JumpsToSelf) (n : Nat) :
    ∃ u : State, Sys2Proof.core.run (n + 1) s = .next u ∧ u.pc = s.pc ∧ u.status.halted = false ∧ u.ret = 3 := by
  induction n generalizing s with
  | zero => exact ⟨s.afterJmp, core_run_succ 0 (step_jmp h.running h.opcode), h.afterJmp.2, h.running, rfl⟩
  | succ n ih =>
    obtain ⟨hself, hpc⟩ := h.afterJmp
    rw [core_run_succ (n + 1) (step_jmp h.running h.opcode), ← hpc]
    exact ih hself

/-- Settles O17: the step is `step_jmp`; a target equal to the pc makes the state one that jumps to itself. -/
theorem stepJmp : Obligations.StepJmp := fun s hrun hop =>
  ⟨s.afterJmp, step_jmp hrun hop, s.toNat_operandAddr, rfl, rfl, rfl, rfl, hrun, rfl, rfl, rfl,
    fun hpc => State.JumpsToSelf.run ⟨hrun, hop, hpc⟩⟩

end Sys2Proof.Machine
end

section
/-! The statements of 42_arithmetic.md: the flag update SetFlags, and that ADD B is its only caller (R72, R73). -/

namespace Sys2Proof.Machine

/-! ## The four flags of an untruncated result, for every t (the range 0 .. 510 of R72 is not needed) -/

theorem flagsOf_z_iff (t : Nat) : (flagsOf t).z = true ↔ t % 256 = 0 := by
  rw [flagsOf_z, decide_eq_true_iff, ← BitVec.toNat_inj, BitVec.toNat_ofNat]
  rfl

/-- Bit 7 of the byte is its most significant one, set from 128 up. -/
theorem flagsOf_s_iff (t : Nat) : (flagsOf t).s = true ↔ 128 ≤ t % 256 := by
  rw [flagsOf_s, ← BitVec.msb_eq_getLsbD_last, BitVec.msb_eq_decide, decide_eq_true_iff, BitVec.toNat_ofNat]

theorem flagsOf_p_iff (t : Nat) :
    (flagsOf t).p = true ↔ (((List.range 8).map (fun k => t % 256 / 2 ^ k % 2)).sum) % 2 = 0 := by
  rw [flagsOf_p, decide_eq_true_iff, popcount_eq_sum, BitVec.toNat_ofNat]

theorem flagsOf_cy_iff (t : Nat) : (flagsOf t).cy = true ↔ 255 < t := by
  rw [flagsOf_cy, decide_eq_true_iff]

/-! ## Who writes the flags -/

/-- Only ADD B writes the flags, with those of the exact sum; every other operation leaves them (42_arithmetic.md R72). -/
theorem exec_flags {i : Instr} {s t : State} (h : exec i s = .next t) :
    t.flags = if i = .addB then flagsOf s.sumAB else s.flags := by
  obtain ⟨rfl, rfl⟩ | ⟨rfl, rfl⟩ | ⟨_, rfl, rfl⟩ | ⟨_, rfl, rfl⟩ | ⟨rfl, rfl⟩ | ⟨_, rfl, rfl⟩ | ⟨_, rfl, rfl⟩ := exec_cases h
  all_goals simp

/-- Settles O6: the four flags one by one, and the flags after each operation; `sumAB` is the exact sum A + B. -/
theorem flagUpdate : Obligations.FlagUpdate :=
  ⟨fun t _ => ⟨flagsOf_z_iff t, flagsOf_s_iff t, flagsOf_p_iff t, flagsOf_cy_iff t⟩, fun _ _ _ h => exec_flags h⟩

end Sys2Proof.Machine
end

section
/-! The statements of 60_exceptions.md: only a reset acts on the engine from outside (R84), and the report log is write-only (R82). -/

namespace Sys2Proof.Machine

/-! ## The host's actions between steps (R84) -/

/-- Everything a host action that is neither a step nor a reset can do: it replaces memory or the port space, and nothing else
(70_reset_and_hazards.md R104); an action that only looks replaces the memory by itself. -/
theorem hostAct_outside_cases {a : HostAction} {s t : State} (hstep : a ≠ .step) (hreset : a.isReset = false)
    (h : hostAct a s = .next t) : (∃ m, t = { s with mem := m }) ∨ (∃ ps, t = s.setPorts ps) := by
  cases a with
  | step => exact absurd rfl hstep
  | reset r => cases hreset
  | write addr v => cases h; exact .inl ⟨_, rfl⟩
  | loadProgram base bytes => cases h; exact .inl ⟨_, rfl⟩
  | enqueue p bytes => cases h; exact .inr ⟨_, rfl⟩
  | takeOutput p n => cases h; exact .inr ⟨_, rfl⟩
  | read addr => cases h; exact .inl ⟨s.mem, rfl⟩
  | readReports => cases h; exact .inl ⟨s.mem, rfl⟩
  | display => cases h; exact .inl ⟨s.mem, rfl⟩

/-- A host action that is neither a step nor a reset leaves the engine, the log, and one of memory and ports. -/
theorem hostAct_outside_frame {a : HostAction} {s t : State} (hstep : a ≠ .step) (hreset : a.isReset = false)
    (h : hostAct a s = .next t) :
    t.hostDisplay = s.hostDisplay ∧ t.log = s.log ∧ (t.mem = s.mem ∨ t.ports = s.ports) := by
  obtain ⟨_, rfl⟩ | ⟨_, rfl⟩ := hostAct_outside_cases hstep hreset h
  · exact ⟨rfl, rfl, .inr rfl⟩
  · exact ⟨rfl, rfl, .inl rfl⟩

/-- A step of a halted engine does nothing, and no other host action but a reset reaches the engine: it sleeps on. -/
theorem hostAct_of_halted {a : HostAction} {s t : State} (hreset : a.isReset = false) (hhalted : s.status.halted = true)
    (h : hostAct a s = .next t) : t.hostDisplay = s.hostDisplay := by
  by_cases hstep : a = .step
  · subst hstep
    have ht : s.haltedNoOp = t := Host.Outcome.next.inj ((step_halted hhalted).symm.trans h)
    exact ht ▸ rfl
  · exact (hostAct_outside_frame hstep hreset h).1

/-- Settles O30: the frame of the actions that are no step, and the display of a halted engine. -/
theorem onlyResetActsOnTheEngineFromOutside : Obligations.OnlyResetActsOnTheEngineFromOutside := by
  intro a s t hreset h
  refine ⟨fun hstep => hostAct_outside_frame hstep hreset h, fun hhalted => ?_⟩
  have hsame : t.hostDisplay = s.hostDisplay := hostAct_of_halted hreset hhalted h
  exact ⟨(congrArg (fun d => d.status.halted) hsame).trans hhalted, congrArg Display.pc hsame⟩

/-! ## The report log (R82) -/

/-- `f` answers `t` from `s` and reports `new`; the log it starts with has no part in either. -/
def ReportsBlindly (f : State → Host.Outcome State Fault Refusal) (s t : State) (new : List Report) : Prop :=
  t.log = s.log ++ new ∧ ∀ l : List Report, f { s with log := l } = .next { t with log := l ++ new }

/-- What carries the log along unread and unwritten reports nothing. -/
theorem reportsBlindly_nil {f : State → Host.Outcome State Fault Refusal} {s t : State} (hlog : t.log = s.log)
    (hf : ∀ l : List Report, f { s with log := l } = .next { t with log := l }) : ReportsBlindly f s t [] :=
  ⟨by rw [hlog, List.append_nil], fun l => by rw [hf l, List.append_nil]⟩

/-- No operation reads or writes the log. -/
theorem exec_reportsBlindly {i : Instr} {s t : State} (h : exec i s = .next t) : ReportsBlindly (exec i) s t [] := by
  obtain ⟨rfl, rfl⟩ | ⟨rfl, rfl⟩ | ⟨_, rfl, rfl⟩ | ⟨_, rfl, rfl⟩ | ⟨rfl, rfl⟩ | ⟨_, rfl, rfl⟩ | ⟨_, rfl, rfl⟩ := exec_cases h
  all_goals exact reportsBlindly_nil rfl fun _ => rfl

/-- A step reports at the fail-stop alone, the opcode and its address, neither of them read from the log (R81). -/
theorem step_reportsBlindly {s t : State} (h : step s = .next t) : ∃ new, ReportsBlindly step s t new := by
  obtain ⟨hhalted, rfl⟩ | ⟨hrun, i, u, hdec, -, hu, rfl⟩ | ⟨hrun, hform, rfl⟩ := step_cases h
  · exact ⟨[], reportsBlindly_nil rfl fun l => step_halted (s := { s with log := l }) hhalted⟩
  · obtain ⟨hlog, hexec⟩ := exec_reportsBlindly hu
    refine ⟨[], hlog, fun l => ?_⟩
    have hstep : step { s with log := l } = finishStep (exec i { s.fetchOpcode with log := l }) :=
      step_of_decode (s := { s with log := l }) hrun hdec
    rw [hstep, hexec l]
    rfl
  · exact ⟨[{ opcode := s.opcodeAt, address := s.pc }], rfl,
      fun l => step_of_unimplemented (s := { s with log := l }) hrun hform⟩

/-- Settles O32: a step by `step_reportsBlindly`; every other action of the host, a reset too, leaves the log. -/
theorem reportLogIsWriteOnly : Obligations.ReportLogIsWriteOnly := by
  intro a s t h
  cases a with
  | step => exact step_reportsBlindly h
  | _ => cases h; exact ⟨[], reportsBlindly_nil rfl fun _ => rfl⟩

end Sys2Proof.Machine
end

section
/-! The statements of 70_reset_and_hazards.md: the number every step returns, on which no state depends (R106). -/

namespace Sys2Proof.Machine

/-! ## The number a step returns -/

/-- The cost column of R106's table, for the seven instructions. -/
def instrCycles : Instr → Nat
  | .nop => 1
  | .hlt => 1
  | .jmp _ => 3
  | .mviA _ => 2
  | .addB => 1
  | .out _ => 2
  | .inp _ => 2

theorem exec_ret {i : Instr} {s t : State} (h : exec i s = .next t) : t.ret = instrCycles i := by
  obtain ⟨rfl, rfl⟩ | ⟨rfl, rfl⟩ | ⟨_, rfl, rfl⟩ | ⟨_, rfl, rfl⟩ | ⟨rfl, rfl⟩ | ⟨_, rfl, rfl⟩ | ⟨_, rfl, rfl⟩ := exec_cases h
  all_goals rfl

/-! ## The number returned before has no part in a step -/

/-- Every operation overwrites the number returned before and reads it nowhere. -/
theorem exec_of_ret (i : Instr) (s : State) (c : Nat) : exec i { s with ret := c } = exec i s := by
  cases i <;> rfl

theorem step_of_ret (s : State) (c : Nat) : step { s with ret := c } = step s := by
  cases hhalted : s.status.halted with
  | true => exact (step_halted (s := { s with ret := c }) hhalted).trans (step_halted hhalted).symm
  | false =>
    obtain ⟨i, hdec, -⟩ | ⟨hform, -⟩ := decode_instrBytes s
    · have hstep : step { s with ret := c } = finishStep (exec i { s.fetchOpcode with ret := c }) :=
        step_of_decode (s := { s with ret := c }) hhalted hdec
      rw [hstep, exec_of_ret, step_of_decode hhalted hdec]
    · exact (step_of_unimplemented (s := { s with ret := c }) hhalted hform).trans (step_of_unimplemented hhalted hform).symm

/-- Settles O25: the three ways of a step, a fetched instruction returning its `instrCycles`; the last clause is `step_of_ret`. -/
theorem cycleCostTable : Obligations.CycleCostTable := by
  intro s t h
  refine ⟨fun hhalted => ?_, fun hrun => ?_, fun c => (step_of_ret s c).trans h⟩
  · rw [step_halted hhalted] at h
    exact Host.Outcome.next.inj h ▸ rfl
  · obtain ⟨hhalted, -⟩ | ⟨-, i, u, hdec, -, hu, rfl⟩ | ⟨-, hform, rfl⟩ := step_cases h
    · exact absurd (hrun.symm.trans hhalted) Bool.false_ne_true
    · rw [hdec, State.drawStatus_ret, exec_ret hu]
      cases i <;> rfl
    · rw [decode_instrBytes_unimplemented s hform]
      rfl

end Sys2Proof.Machine
end

section
/-! SUPPORT. One equation of the step per opcode byte, every way of a step as one relation, and when two states step alike
(30_encoding.md sections 3 and 4). -/

namespace Sys2Proof.Machine

/-! ## The operand byte and the pc behind it -/

/-- The byte after the opcode (30_encoding.md R59). -/
def State.operandByte (s : State) : Byte := s.mem.read (s.pc.toNat + 1)

theorem State.read_pc_add_one (s : State) : s.mem.read (s.pc + 1).toNat = s.operandByte := read_operand_one s.mem s.pc

/-- Past the opcode and past one operand byte is two further (10_state.md section 2). -/
theorem addr_add_one_add_one (a : Addr) : a + 1 + 1 = a + 2 := BitVec.add_assoc a 1 1

/-! ## The step over each opcode byte -/

section
variable {s : State} (hrun : s.status.halted = false)
include hrun

theorem step_nop (hop : s.opcodeAt = 0x00) : step s = .next (s.fetchOpcode.returns 1).drawStatus :=
  step_of_decode hrun (decode_instrBytes_nop s hop)

theorem step_hlt (hop : s.opcodeAt = 0x76) : step s = .next (s.fetchOpcode.halt.returns 1).drawStatus :=
  step_of_decode hrun (decode_instrBytes_hlt s hop)

theorem step_mviA (hop : s.opcodeAt = 0x3E) :
    step s = .next ((s.fetchOpcode.skipOperand.setA s.operandByte).returns 2).drawStatus := by
  rw [step_of_decode hrun (decode_instrBytes_mviA s hop), s.read_pc_add_one]
  rfl

theorem step_addB (hop : s.opcodeAt = 0x80) :
    step s = .next (((s.fetchOpcode.setA (BitVec.ofNat 8 s.sumAB)).setFlags (flagsOf s.sumAB)).returns 1).drawStatus :=
  step_of_decode hrun (decode_instrBytes_addB s hop)

theorem step_out (hop : s.opcodeAt = 0xD3) :
    step s = .next ((s.fetchOpcode.skipOperand.setPorts
      (s.ports.portOut s.operandByte s.regs.a)).markOutput.returns 2).drawStatus := by
  rw [step_of_decode hrun (decode_instrBytes_out s hop), s.read_pc_add_one]
  rfl

theorem step_inp (hop : s.opcodeAt = 0xDB) :
    step s = .next (((s.fetchOpcode.skipOperand.setPorts (s.ports.portInRest s.operandByte)).setA
      (s.ports.portInByte s.operandByte)).markInput.returns 2).drawStatus := by
  rw [step_of_decode hrun (decode_instrBytes_inp s hop), s.read_pc_add_one]
  rfl

theorem step_failStop (hop : s.opcodeAt ∉ supportedOpcodes) :
    step s = .next (s.fetchOpcode.raiseUnimplemented s.opcodeAt s.pc).drawStatus :=
  step_of_unimplemented hrun ((formOf_eq_none_iff _).2 hop)

end

/-! ## Every way of a step -/

/-- The ways of a step from `s`, with the state each one answers: halted (30_encoding.md R56), one for each row of R55's table, and the
fail-stop over the other opcode bytes (60_exceptions.md R81). -/
inductive StepWay (s : State) : State → Prop
  | halted (hhalted : s.status.halted = true) : StepWay s s.haltedNoOp
  | nop (hrun : s.status.halted = false) (hop : s.opcodeAt = 0x00) : StepWay s (s.fetchOpcode.returns 1).drawStatus
  | hlt (hrun : s.status.halted = false) (hop : s.opcodeAt = 0x76) : StepWay s (s.fetchOpcode.halt.returns 1).drawStatus
  | jmp (hrun : s.status.halted = false) (hop : s.opcodeAt = 0xC3) : StepWay s s.afterJmp
  | mviA (hrun : s.status.halted = false) (hop : s.opcodeAt = 0x3E) :
      StepWay s ((s.fetchOpcode.skipOperand.setA s.operandByte).returns 2).drawStatus
  | addB (hrun : s.status.halted = false) (hop : s.opcodeAt = 0x80) :
      StepWay s (((s.fetchOpcode.setA (BitVec.ofNat 8 s.sumAB)).setFlags (flagsOf s.sumAB)).returns 1).drawStatus
  | out (hrun : s.status.halted = false) (hop : s.opcodeAt = 0xD3) :
      StepWay s ((s.fetchOpcode.skipOperand.setPorts
        (s.ports.portOut s.operandByte s.regs.a)).markOutput.returns 2).drawStatus
  | inp (hrun : s.status.halted = false) (hop : s.opcodeAt = 0xDB) :
      StepWay s (((s.fetchOpcode.skipOperand.setPorts (s.ports.portInRest s.operandByte)).setA
        (s.ports.portInByte s.operandByte)).markInput.returns 2).drawStatus
  | failStop (hrun : s.status.halted = false) (hop : s.opcodeAt ∉ supportedOpcodes) :
      StepWay s (s.fetchOpcode.raiseUnimplemented s.opcodeAt s.pc).drawStatus

/-- The seven bytes of R55's table, one by one. -/
theorem supported_cases {op : Byte} (hop : op ∈ supportedOpcodes) :
    op = 0x00 ∨ op = 0x76 ∨ op = 0xC3 ∨ op = 0x3E ∨ op = 0x80 ∨ op = 0xD3 ∨ op = 0xDB := by
  simpa only [supportedOpcodes, List.mem_cons, List.not_mem_nil, or_false] using hop

/-- A byte outside the seven is none of them. -/
theorem ne_of_not_supported {op b : Byte} (hop : op ∉ supportedOpcodes) (hb : b ∈ supportedOpcodes) : op ≠ b :=
  (ne_of_mem_of_not_mem hb hop).symm

/-- A byte outside the seven is none of the three opcodes with one operand byte. -/
theorem not_two_bytes_of_not_supported {op : Byte} (hop : op ∉ supportedOpcodes) : ¬ (op = 0x3E ∨ op = 0xD3 ∨ op = 0xDB) := by
  rintro (rfl | rfl | rfl) <;> exact hop (by decide)

/-- Every state steps, in one of the ways. -/
theorem step_total (s : State) : ∃ t, step s = .next t ∧ StepWay s t := by
  cases hhalted : s.status.halted with
  | true => exact ⟨_, step_halted hhalted, .halted hhalted⟩
  | false =>
    by_cases hsupp : s.opcodeAt ∉ supportedOpcodes
    · exact ⟨_, step_failStop hhalted hsupp, .failStop hhalted hsupp⟩
    obtain hop | hop | hop | hop | hop | hop | hop := supported_cases (not_not.1 hsupp)
    · exact ⟨_, step_nop hhalted hop, .nop hhalted hop⟩
    · exact ⟨_, step_hlt hhalted hop, .hlt hhalted hop⟩
    · exact ⟨_, step_jmp hhalted hop, .jmp hhalted hop⟩
    · exact ⟨_, step_mviA hhalted hop, .mviA hhalted hop⟩
    · exact ⟨_, step_addB hhalted hop, .addB hhalted hop⟩
    · exact ⟨_, step_out hhalted hop, .out hhalted hop⟩
    · exact ⟨_, step_inp hhalted hop, .inp hhalted hop⟩

/-- Everything a step can do, by the opcode byte at the pc. -/
theorem stepWay_of_step {s t : State} (h : step s = .next t) : StepWay s t := by
  obtain ⟨u, hu, hway⟩ := step_total s
  obtain rfl : t = u := Host.Outcome.next.inj (h.symm.trans hu)
  exact hway

/-! ## Two states that step alike -/

/-- Two states of which both or neither is halted, with the same bytes at the pc, step alike: what relates their next states is to be
shown for the halted step, for the operation between fetch and draw, and for the fail-stop. -/
theorem step_transfer {s s' t : State} {Q : State → State → Prop}
    (hhalted : s'.status.halted = s.status.halted) (hop : s'.opcodeAt = s.opcodeAt) (hbytes : s'.instrBytes = s.instrBytes)
    (hnoOp : Q s.haltedNoOp s'.haltedNoOp)
    (hexec : ∀ i u, s.status.halted = false → i.opcode = s.opcodeAt → exec i s.fetchOpcode = .next u →
      ∃ u', exec i s'.fetchOpcode = .next u' ∧ Q u.drawStatus u'.drawStatus)
    (hfail : Q (s.fetchOpcode.raiseUnimplemented s.opcodeAt s.pc).drawStatus
      (s'.fetchOpcode.raiseUnimplemented s'.opcodeAt s'.pc).drawStatus)
    (h : step s = .next t) : ∃ t', step s' = .next t' ∧ Q t t' := by
  obtain ⟨hh, rfl⟩ | ⟨hrun, i, u, hdec, hi, hu, rfl⟩ | ⟨hrun, hform, rfl⟩ := step_cases h
  · exact ⟨_, step_halted (hhalted.trans hh), hnoOp⟩
  · obtain ⟨u', hu', hQ⟩ := hexec i u hrun hi hu
    refine ⟨u'.drawStatus, ?_, hQ⟩
    rw [step_of_decode (hhalted.trans hrun) (by rw [hbytes, hdec]), hu']
    rfl
  · exact ⟨_, step_of_unimplemented (hhalted.trans hrun) (by rw [hop, hform]), hfail⟩

end Sys2Proof.Machine
end

section
/-! The engine and memory: what a step reads and that it writes nothing (20_memory.md section 2). -/

namespace Sys2Proof.Machine

/-! ## Runs of bytes by their addresses -/

theorem Memory.getElem_readRun (m : Memory) (a : Addr) (n k : Nat) (hk : k < (readRun m a n).length) :
    (readRun m a n)[k] = read m (a.toNat + k) := by
  induction n generalizing a k with
  | zero => exact absurd hk (by simp)
  | succ n ih =>
    cases k with
    | zero => simp
    | succ k =>
      simp only [readRun_succ, List.getElem_cons_succ, ih]
      exact read_congr m (by rw [BitVec.toNat_add]; simp; omega)

/-- Memories that read alike at the addresses of a run give the same run. -/
theorem Memory.readRun_congr {m m' : Memory} {a : Addr} {n : Nat}
    (h : ∀ k < n, read m (a.toNat + k) = read m' (a.toNat + k)) : readRun m a n = readRun m' a n := by
  refine List.ext_getElem (by simp) fun k hk _ => ?_
  rw [getElem_readRun, getElem_readRun, h k (by simpa using hk)]

/-! ## Another memory with the same bytes at the pc -/

theorem opcodeLength_pos (op : Byte) : 0 < opcodeLength op := by
  unfold opcodeLength
  split
  · next f _ => cases f <;> exact Nat.succ_pos _
  · decide

/-- `m` reads like the memory of `s` at every byte of the instruction at the pc. -/
def State.SameInstrBytes (s : State) (m : Memory) : Prop :=
  ∀ k < opcodeLength s.opcodeAt, m.read (s.pc.toNat + k) = s.mem.read (s.pc.toNat + k)

theorem State.SameInstrBytes.opcodeAt {s : State} {m : Memory} (h : s.SameInstrBytes m) :
    State.opcodeAt { s with mem := m } = s.opcodeAt := h 0 (opcodeLength_pos _)

theorem State.SameInstrBytes.instrBytes {s : State} {m : Memory} (h : s.SameInstrBytes m) :
    State.instrBytes { s with mem := m } = s.instrBytes := by
  rw [State.instrBytes, h.opcodeAt]
  exact Memory.readRun_congr h

/-- No operation reads or writes memory: the operand bytes are fields of the instruction (log 21). -/
theorem exec_of_mem {i : Instr} {s t : State} (h : exec i s = .next t) (m : Memory) :
    exec i { s with mem := m } = .next { t with mem := m } := by
  obtain ⟨rfl, rfl⟩ | ⟨rfl, rfl⟩ | ⟨_, rfl, rfl⟩ | ⟨_, rfl, rfl⟩ | ⟨rfl, rfl⟩ | ⟨_, rfl, rfl⟩ | ⟨_, rfl, rfl⟩ := exec_cases h
  all_goals rfl

theorem step_mem {s t : State} (h : step s = .next t) : t.mem = s.mem := by
  cases stepWay_of_step h <;> rfl

/-- A step does the same with every memory that holds the same instruction at the pc. -/
theorem step_of_mem {s t : State} {m : Memory} (hm : s.SameInstrBytes m) (h : step s = .next t) :
    step { s with mem := m } = .next { t with mem := m } := by
  obtain ⟨_, hstep, rfl⟩ := step_transfer (s := s) (s' := { s with mem := m }) (Q := fun t t' => t' = { t with mem := m })
    rfl hm.opcodeAt hm.instrBytes rfl (fun i u _ _ hu => ⟨_, exec_of_mem hu m, rfl⟩) (by rw [hm.opcodeAt]; rfl) h
  exact hstep

/-- Settles O31: no way of a step stores (`step_mem`), and the fetch reads the instruction's bytes alone (`step_of_mem`). -/
theorem engineNeverWritesMemory : Obligations.EngineNeverWritesMemory :=
  fun _ _ h => ⟨step_mem h, fun _ hm => step_of_mem hm h⟩

end Sys2Proof.Machine
end

section
/-! What no instruction reads has no influence on any run (10_state.md R16, R20, R21, R24). -/

namespace Sys2Proof.Machine

/-! ## The updates of the state keep the agreement -/

namespace AgreeOnRead

variable {s s' : State} (h : AgreeOnRead s s')
include h

theorem returns (c c' : Nat) : AgreeOnRead (s.returns c) (s'.returns c') := { h with }
theorem setA {v v' : Byte} (hv : v = v') : AgreeOnRead (s.setA v) (s'.setA v') := { h with a := hv }
theorem setPc (a : Addr) : AgreeOnRead (s.setPc a) (s'.setPc a) := { h with pc := rfl }
theorem skipOperand : AgreeOnRead s.skipOperand s'.skipOperand := { h with pc := congrArg (· + 1) h.pc }
theorem setFlags (f f' : Flags) : AgreeOnRead (s.setFlags f) (s'.setFlags f') := { h with }
theorem setPorts {ps ps' : Ports} (hps : ps = ps') : AgreeOnRead (s.setPorts ps) (s'.setPorts ps') :=
  { h with ports := hps }
theorem halt : AgreeOnRead s.halt s'.halt := { h with halted := rfl }
theorem markInput : AgreeOnRead s.markInput s'.markInput := { h with }
theorem markOutput : AgreeOnRead s.markOutput s'.markOutput := { h with }
theorem fetchOpcode : AgreeOnRead s.fetchOpcode s'.fetchOpcode := { h with pc := congrArg (· + 1) h.pc }
theorem drawStatus : AgreeOnRead s.drawStatus s'.drawStatus := { h with }

theorem raiseUnimplemented (op : Byte) (a : Addr) :
    AgreeOnRead (s.raiseUnimplemented op a) (s'.raiseUnimplemented op a) :=
  { h with halted := rfl, log := congrArg (· ++ [Report.mk op a]) h.log }

theorem hostReset (r : ResetRegs) : AgreeOnRead (s.hostReset r) (s'.hostReset r) :=
  { h with a := rfl, b := rfl, pc := rfl, halted := rfl }

theorem withMem {m m' : Memory} (hm : m = m') : AgreeOnRead { s with mem := m } { s' with mem := m' } := { h with mem := hm }

theorem opcodeAt : s'.opcodeAt = s.opcodeAt := by rw [State.opcodeAt, State.opcodeAt, h.mem, h.pc]

theorem instrBytes : s'.instrBytes = s.instrBytes := by
  rw [State.instrBytes, State.instrBytes, h.opcodeAt, h.mem, h.pc]

theorem sumAB : s.sumAB = s'.sumAB := by simp only [State.sumAB, State.reg, h.a, h.b]

/-! ## Operations, steps and actions keep it, and return the same number -/

theorem exec {i : Instr} {t : State} (hex : Machine.exec i s = .next t) :
    ∃ t', Machine.exec i s' = .next t' ∧ AgreeOnRead t t' ∧ t.ret = t'.ret := by
  obtain ⟨rfl, rfl⟩ | ⟨rfl, rfl⟩ | ⟨a, rfl, rfl⟩ | ⟨d, rfl, rfl⟩ | ⟨rfl, rfl⟩ | ⟨p, rfl, rfl⟩ | ⟨p, rfl, rfl⟩ := exec_cases hex
  · exact ⟨_, rfl, h.returns 1 1, rfl⟩
  · exact ⟨_, rfl, h.halt.returns 1 1, rfl⟩
  · exact ⟨_, rfl, (h.skipOperand.skipOperand.setPc a).returns 3 3, rfl⟩
  · exact ⟨_, rfl, (h.skipOperand.setA rfl).returns 2 2, rfl⟩
  · exact ⟨_, rfl, ((h.setA (congrArg (BitVec.ofNat 8) h.sumAB)).setFlags _ _).returns 1 1, rfl⟩
  · exact ⟨_, rfl, (h.skipOperand.setPorts (congrArg₂ (Ports.portOut · p ·) h.ports h.a)).markOutput.returns 2 2, rfl⟩
  · exact ⟨_, rfl, ((h.skipOperand.setPorts (congrArg (Ports.portInRest · p) h.ports)).setA
      (congrArg (Ports.portInByte · p) h.ports)).markInput.returns 2 2, rfl⟩

theorem step {t : State} (hstep : Machine.step s = .next t) :
    ∃ t', Machine.step s' = .next t' ∧ AgreeOnRead t t' ∧ t.ret = t'.ret := by
  refine step_transfer (Q := fun t t' => AgreeOnRead t t' ∧ t.ret = t'.ret) h.halted.symm h.opcodeAt h.instrBytes
    ⟨h.returns 0 0, rfl⟩ (fun i u _ _ hu => ?_) ⟨?_, rfl⟩ hstep
  · obtain ⟨u', hu', hagree, hret⟩ := h.fetchOpcode.exec hu
    exact ⟨u', hu', hagree.drawStatus, hret⟩
  · rw [h.opcodeAt, ← h.pc]
    exact (h.fetchOpcode.raiseUnimplemented _ _).drawStatus

theorem hostAct {a : HostAction} {t : State} (hret : s.ret = s'.ret) (hact : Machine.hostAct a s = .next t) :
    ∃ t', Machine.hostAct a s' = .next t' ∧ AgreeOnRead t t' ∧ t.ret = t'.ret := by
  cases a with
  | step => exact h.step hact
  | reset r => cases hact; exact ⟨_, rfl, h.hostReset r, rfl⟩
  | write addr v => cases hact; exact ⟨_, rfl, h.withMem (congrArg (Memory.write · addr v) h.mem), hret⟩
  | loadProgram base bytes => cases hact; exact ⟨_, rfl, h.withMem (congrArg (Memory.load · base bytes) h.mem), hret⟩
  | enqueue p bytes => cases hact; exact ⟨_, rfl, h.setPorts (congrArg (Ports.modify · p _) h.ports), hret⟩
  | takeOutput p n => cases hact; exact ⟨_, rfl, h.setPorts (congrArg (Ports.modify · p _) h.ports), hret⟩
  | read _ => cases hact; exact ⟨_, rfl, h, hret⟩
  | readReports => cases hact; exact ⟨_, rfl, h, hret⟩
  | display => cases hact; exact ⟨_, rfl, h, hret⟩

end AgreeOnRead

/-- Settles O36, by induction on the run: each action keeps the agreement and the returned number (`AgreeOnRead.hostAct`). -/
theorem unreadStateHasNoInfluence : Obligations.UnreadStateHasNoInfluence := by
  intro acts
  induction acts with
  | nil =>
    intro s s' t hagree hret h
    cases h
    exact ⟨s', rfl, hagree, hret⟩
  | cons a acts ih =>
    intro s s' t hagree hret h
    obtain ⟨u, hu, hrest⟩ := hostRun_cons.1 h
    obtain ⟨u', hu', hagree', hret'⟩ := hagree.hostAct hret hu
    obtain ⟨t', ht', hend⟩ := ih u u' t hagree' hret' hrest
    exact ⟨t', hostRun_cons.2 ⟨u', hu', ht'⟩, hend⟩

end Sys2Proof.Machine
end

section
/-! The port space over steps and runs: who reaches a port, the wiring, and the order of queued bytes (20_memory.md section 4). -/

namespace Sys2Proof.Machine

/-! ## The ports after a step -/

/-- What a step does to the port space: nothing, an OUT's PortOut, or an IN's PortIn, each at the operand's port. -/
theorem step_ports {s t : State} (h : step s = .next t) :
    t.ports = s.ports ∨
    (s.status.halted = false ∧ s.opcodeAt = 0xD3 ∧ t.ports = s.ports.portOut s.operandByte s.regs.a) ∨
    (s.status.halted = false ∧ s.opcodeAt = 0xDB ∧ t.ports = s.ports.portInRest s.operandByte) := by
  cases stepWay_of_step h with
  | out hrun hop => exact .inr (.inl ⟨hrun, hop, rfl⟩)
  | inp hrun hop => exact .inr (.inr ⟨hrun, hop, rfl⟩)
  | _ => exact .inl rfl

/-- A step that is neither an OUT nor an IN leaves the ports. -/
theorem step_ports_of_ne {s t : State} (h : step s = .next t)
    (hno : s.status.halted = true ∨ (s.opcodeAt ≠ 0xD3 ∧ s.opcodeAt ≠ 0xDB)) : t.ports = s.ports := by
  obtain hsame | ⟨hrun, hop, -⟩ | ⟨hrun, hop, -⟩ := step_ports h
  · exact hsame
  · simp [hrun, hop] at hno
  · simp [hrun, hop] at hno

theorem step_find_other {s t : State} (h : step s = .next t) {p : Byte} (hp : p ≠ s.operandByte) :
    Ports.find t.ports p = Ports.find s.ports p := by
  obtain hsame | ⟨-, -, hout⟩ | ⟨-, -, hin⟩ := step_ports h
  · rw [hsame]
  · rw [hout, Ports.find_portOut_other _ hp]
  · rw [hin, Ports.find_portInRest_other _ hp]

/-- A wired port after a step: as it was, with A pushed by an OUT to it, or popped by an IN from it (20_memory.md R45, R46). -/
theorem step_find_wired {s t : State} (h : step s = .next t) {p : Byte} {q : Port} (hq : Ports.find s.ports p = some q) :
    Ports.find t.ports p = some q ∨
    (s.opcodeAt = 0xD3 ∧ Ports.find t.ports p = some (q.push s.regs.a)) ∨
    (s.opcodeAt = 0xDB ∧ Ports.find t.ports p = some q.pop) := by
  by_cases hp : p = s.operandByte
  · subst hp
    obtain hsame | ⟨-, hop, hout⟩ | ⟨-, hop, hin⟩ := step_ports h
    · exact .inl (hsame ▸ hq)
    · exact .inr (.inl ⟨hop, by rw [hout, Ports.find_portOut_same hq]⟩)
    · exact .inr (.inr ⟨hop, by rw [hin, Ports.find_portInRest_same hq]⟩)
  · exact .inl ((step_find_other h hp).trans hq)

/-- Settles O37: the three clauses are `step_ports_of_ne`, `step_find_other`, and the contents of the port in `step_find_wired`. -/
theorem onlyOutAndInReachPorts : Obligations.OnlyOutAndInReachPorts := by
  intro s t h
  refine ⟨step_ports_of_ne h, fun p q hp hq => (step_find_other h hp).trans hq, fun p q hq => ?_⟩
  obtain hsame | ⟨hop, hpush⟩ | ⟨hop, hpop⟩ := step_find_wired h hq
  · exact ⟨q, hsame, .inl rfl, .inl rfl⟩
  · exact ⟨_, hpush, .inl rfl, .inr ⟨hop, rfl⟩⟩
  · exact ⟨_, hpop, .inr ⟨hop, rfl⟩, .inl rfl⟩

/-! ## The wiring -/

theorem step_wired {s t : State} (h : step s = .next t) : t.wired = s.wired := by
  obtain hsame | ⟨-, -, hout⟩ | ⟨-, -, hin⟩ := step_ports h
  · rw [State.wired, hsame, State.wired]
  · rw [State.wired, hout, Ports.portOut_nums, State.wired]
  · rw [State.wired, hin, Ports.portInRest_nums, State.wired]

theorem hostAct_wired {a : HostAction} {s t : State} (h : hostAct a s = .next t) : t.wired = s.wired := by
  cases a with
  | step => exact step_wired h
  | enqueue p bytes => cases h; exact Ports.modify_nums _ _ _ fun _ => rfl
  | takeOutput p n => cases h; exact Ports.modify_nums _ _ _ fun _ => rfl
  | _ => cases h; rfl

/-- Settles O38: no action rewires (`hostAct_wired`), so no run does. -/
theorem wiringNeverChanges : Obligations.WiringNeverChanges := fun _ s _ h =>
  hostRun_keeps (P := fun t => t.wired = s.wired) (fun _ _ _ hact hs => (hostAct_wired hact).trans hs) h rfl

/-! ## Queueing, and consecutive INs -/

/-- A port with bytes queued after those its FIFO holds. -/
def Port.queue (bytes : List Byte) (q : Port) : Port := { q with fifo := q.fifo ++ bytes }

/-- What the host queues on a wired port stands after what its FIFO held (70_reset_and_hazards.md R104; log 17). -/
theorem State.find_hostEnqueue_same {s : State} {p : Byte} {q : Port} (hq : Ports.find s.ports p = some q)
    (bytes : List Byte) :
    Ports.find (s.hostEnqueue p bytes).ports p = some (q.queue bytes) :=
  (Ports.find_modify_same s.ports p (Port.queue bytes) fun _ => rfl).trans (by rw [hq]; rfl)

/-- The state that one IN of port `p` answers (43_io.md R79). -/
def State.afterInp (s : State) (p : Byte) : State :=
  ((s.skipOperand.setPorts (s.ports.portInRest p)).setA (s.ports.portInByte p)).markInput.returns 2

theorem execTimes_inp_succ (p : Byte) (n : Nat) (s : State) :
    execTimes (.inp p) (n + 1) s = execTimes (.inp p) n (s.afterInp p) := rfl

/-- `n + 1` INs of a wired port drop as many bytes from its FIFO; A is the last of them, or 0x00 past the end. -/
theorem execTimes_inp {p : Byte} {q : Port} {s : State} (hq : Ports.find s.ports p = some q) (n : Nat) :
    ∃ t, execTimes (.inp p) (n + 1) s = .next t ∧
      (Ports.find t.ports p).map (fun q => q.fifo) = some (q.fifo.drop (n + 1)) ∧
      t.regs.a = (q.fifo.drop n).headD 0x00 := by
  have hpop : Ports.find (s.afterInp p).ports p = some q.pop := Ports.find_portInRest_same hq
  induction n generalizing s q with
  | zero =>
    have hfront : (s.afterInp p).regs.a = q.front := Ports.portInByte_wired hq
    exact ⟨s.afterInp p, rfl, by rw [hpop, List.drop_one]; rfl, hfront⟩
  | succ n ih =>
    obtain ⟨t, ht, hfifo, ha⟩ := ih hpop (Ports.find_portInRest_same hpop)
    rw [Port.pop_fifo, List.drop_tail] at hfifo ha
    exact ⟨t, (execTimes_inp_succ p (n + 1) s).trans ht, hfifo, ha⟩

/-- Settles O39: the queued bytes by `State.find_hostEnqueue_same`, their way out by `execTimes_inp`; no IN at all changes nothing. -/
theorem queuedBytesComeOutInOrder : Obligations.QueuedBytesComeOutInOrder := by
  intro p q bytes s hq
  have hqueued := State.find_hostEnqueue_same hq bytes
  refine ⟨_, hqueued, rfl, rfl, fun n => ?_⟩
  cases n with
  | zero => exact ⟨_, rfl, by rw [hqueued]; rfl, fun h0 => absurd h0 (Nat.lt_irrefl 0)⟩
  | succ n =>
    obtain ⟨t, ht, hfifo, ha⟩ := execTimes_inp hqueued n
    exact ⟨t, ht, hfifo, fun _ => ha⟩

end Sys2Proof.Machine
end

section
/-! The status bits over a step and a reset: where a step halts, `inte`, the I/O signals and the drawn signals (10_state.md section 5;
70_reset_and_hazards.md section 4). -/

namespace Sys2Proof.Machine

/-! ## One bit at a time -/

section
variable {s t : State} (h : step s = .next t) (hrun : s.status.halted = false)
include h

/-- `inte` is read and written by nothing but a reset (10_state.md R26). -/
theorem step_inte : t.status.inte = s.status.inte := by
  cases stepWay_of_step h <;> rfl

include hrun

/-- A running step halts over HLT and over the bytes outside the seven, and nowhere else (70_reset_and_hazards.md R103). -/
theorem step_halts_iff : t.status.halted = true ↔ s.opcodeAt = 0x76 ∨ s.opcodeAt ∉ supportedOpcodes := by
  cases stepWay_of_step h with
  | halted hhalted => exact absurd (hrun.symm.trans hhalted) Bool.false_ne_true
  | hlt _ hop => exact iff_of_true rfl (.inl hop)
  | failStop _ hop => exact iff_of_true rfl (.inr hop)
  | _ _ hop => simp [State.afterJmp, hrun, hop, supportedOpcodes]

/-- The I/O signals after a running step: IN's own and OUT's own (10_state.md R27, R28, D23; log 13). -/
theorem step_signals :
    t.status.input = decide (s.opcodeAt = 0xDB) ∧ t.status.output = decide (s.opcodeAt = 0xD3) := by
  cases stepWay_of_step h with
  | halted hhalted => exact absurd (hrun.symm.trans hhalted) Bool.false_ne_true
  | failStop _ hop =>
    exact ⟨(decide_eq_false (ne_of_not_supported hop (by decide))).symm,
      (decide_eq_false (ne_of_not_supported hop (by decide))).symm⟩
  | _ _ hop => rw [hop]; exact ⟨rfl, rfl⟩

/-- Where a step halts neither I/O signal stands: it was no IN and no OUT (10_state.md R27, R28). -/
theorem step_signals_of_halts (hhalts : t.status.halted = true) : t.status.input = false ∧ t.status.output = false := by
  obtain ⟨hin, hout⟩ := step_signals h hrun
  rw [hin, hout]
  obtain hop | hop := (step_halts_iff h hrun).1 hhalts
  · rw [hop]
    decide
  · exact ⟨decide_eq_false (ne_of_not_supported hop (by decide)), decide_eq_false (ne_of_not_supported hop (by decide))⟩

/-- A running step ends with one draw of the three free signals (10_state.md R29; log 6). -/
theorem step_draws :
    t.status.m1 = Config.drawM1 s.draws ∧ t.status.memr = Config.drawMemr s.draws ∧
      t.status.wait = Config.drawWait s.draws ∧ t.draws = s.draws + 1 := by
  cases stepWay_of_step h with
  | halted hhalted => exact absurd (hrun.symm.trans hhalted) Bool.false_ne_true
  | _ => exact ⟨rfl, rfl, rfl, rfl⟩

end

/-- A halted step leaves every status bit (30_encoding.md R56, D19; log 14). -/
theorem step_status_of_halted {s t : State} (h : step s = .next t) (hhalted : s.status.halted = true) :
    t.status = s.status := by
  obtain rfl : s.haltedNoOp = t := Host.Outcome.next.inj ((step_halted hhalted).symm.trans h)
  rfl

/-- Settles O26: a halted step leaves both signals, a running one sets them by its opcode byte, and a reset clears them. -/
theorem inputAndOutputSignals : Obligations.InputAndOutputSignals := by
  intro s t h
  refine ⟨fun hhalted => ?_, step_signals h, step_signals_of_halts h, fun _ => ⟨rfl, rfl⟩⟩
  rw [step_status_of_halted h hhalted]
  exact ⟨rfl, rfl⟩

/-! ## The drawn signals have no influence -/

/-- `s` with other drawn signals and another count of draws. -/
def State.withDraws (s : State) (b1 b2 b3 : Bool) (n : Nat) : State :=
  { s with status := { s.status with m1 := b1, memr := b2, wait := b3 }, draws := n }

theorem exec_withDraws {i : Instr} {s t : State} (h : exec i s = .next t) (b1 b2 b3 : Bool) (n : Nat) :
    exec i (s.withDraws b1 b2 b3 n) = .next (t.withDraws b1 b2 b3 n) := by
  obtain ⟨rfl, rfl⟩ | ⟨rfl, rfl⟩ | ⟨_, rfl, rfl⟩ | ⟨_, rfl, rfl⟩ | ⟨rfl, rfl⟩ | ⟨_, rfl, rfl⟩ | ⟨_, rfl, rfl⟩ := exec_cases h
  all_goals rfl

/-- From other drawn signals a step answers the same state up to the drawn signals. -/
theorem step_withDraws {s t : State} (h : step s = .next t) (b1 b2 b3 : Bool) (n : Nat) :
    ∃ t', step (s.withDraws b1 b2 b3 n) = .next t' ∧
      t'.withDraws t.status.m1 t.status.memr t.status.wait t.draws = t :=
  step_transfer (s := s) (Q := fun t t' => t'.withDraws t.status.m1 t.status.memr t.status.wait t.draws = t)
    rfl rfl rfl rfl (fun _ _ _ _ hu => ⟨_, exec_withDraws hu b1 b2 b3 n, rfl⟩) rfl h

/-- Settles O27: the draw of a running step, that of a reset, and that no step reads what was drawn before. -/
theorem drawnSignals : Obligations.DrawnSignals :=
  ⟨fun _ _ hrun h => step_draws h hrun, fun _ _ => ⟨rfl, rfl, rfl, rfl⟩, fun _ _ b1 b2 b3 n h => step_withDraws h b1 b2 b3 n⟩

end Sys2Proof.Machine
end

section
/-! The invariant: at reset, over a step, and over every run of host actions (10_state.md section 5; 20_memory.md section 1). -/

namespace Sys2Proof.Machine

/-- The three rules that legal status bits keep (10_state.md R26, R27, R28). -/
theorem Status.legal_iff (x : Status) :
    x.legal = true ↔ x.inte = false ∧ (x.halted = true → x.input = false ∧ x.output = false) ∧
      (x.input = true → x.output = false) := by
  cases hh : x.halted <;> cases hi : x.input <;> simp [Status.legal, hh, hi]

/-- One opcode byte is not both an IN and an OUT, and no I/O signal is set where a step halts. -/
theorem step_status_legal {s t : State} (h : step s = .next t) (hs : s.status.legal = true) : t.status.legal = true := by
  cases hhalted : s.status.halted with
  | true => rwa [step_status_of_halted h hhalted]
  | false =>
    have hinte : t.status.inte = false := (step_inte h).trans ((Status.legal_iff _).1 hs).1
    obtain ⟨hinput, houtput⟩ := step_signals h hhalted
    refine (Status.legal_iff _).2 ⟨hinte, step_signals_of_halts h hhalted, fun hset => ?_⟩
    rw [hinput, decide_eq_true_iff] at hset
    rw [houtput, hset]
    decide

theorem step_ports_wf {s t : State} (h : step s = .next t) (hs : s.ports.wf = true) : t.ports.wf = true := by
  obtain hsame | ⟨-, -, hout⟩ | ⟨-, -, hin⟩ := step_ports h
  · rwa [hsame]
  · rw [hout]
    exact Ports.portOut_wf hs _ _
  · rw [hin]
    exact Ports.portInRest_wf hs _

theorem step_inv {s t : State} (hs : s.Inv) (h : step s = .next t) : t.Inv where
  mem_wf := by rw [step_mem h]; exact hs.mem_wf
  ports_wf := step_ports_wf h hs.ports_wf
  status_legal := step_status_legal h hs.status_legal

/-- Every action keeps the invariant: a write and a load the form of memory, queueing and taking that of the ports; a reset clears the
status bits. -/
theorem hostAct_inv {a : HostAction} {s t : State} (h : hostAct a s = .next t) (hs : s.Inv) : t.Inv := by
  cases a with
  | step => exact step_inv hs h
  | reset r => cases h; exact { hs with status_legal := rfl }
  | write addr v => cases h; exact { hs with mem_wf := Memory.write_wf hs.mem_wf addr v }
  | loadProgram base bytes => cases h; exact { hs with mem_wf := Memory.load_wf hs.mem_wf base bytes }
  | enqueue p bytes => cases h; exact { hs with ports_wf := Ports.modify_wf hs.ports_wf p _ fun _ => rfl }
  | takeOutput p n => cases h; exact { hs with ports_wf := Ports.modify_wf hs.ports_wf p _ fun _ => rfl }
  | _ => cases h; exact hs

/-- Settles O48, by `step_inv`: a step keeps memory, the form of the ports, and legal status bits. -/
theorem stepKeepsInvariant : Obligations.StepKeepsInvariant := fun _ _ hs h => step_inv hs h

/-- Settles O49: every action keeps the invariant (`hostAct_inv`), so every run does. -/
theorem hostRunKeepsInvariant : Obligations.HostRunKeepsInvariant := fun _ _ _ hs h =>
  hostRun_keeps (fun _ _ _ => hostAct_inv) h hs

/-- Settles O47: a new machine's status bits are clear but for the drawn ones, which the invariant leaves free. -/
theorem resetMeetsInvariant : Obligations.ResetMeetsInvariant :=
  ⟨⟨rfl, rfl, rfl⟩, fun _ _ _ hm hps => ⟨hm, hps, rfl⟩⟩

end Sys2Proof.Machine
end

section
/-! Decode and encode (30_encoding.md sections 2 to 6), and the assembler's spellings (section 7). -/

namespace Sys2Proof

/-- The decoder gives every instruction back from its bytes and leaves what follows. -/
theorem decode_encode_append (i : Instr) : Laws.RoundTrip.Statement i := by
  cases i with
  | nop => exact Laws.RoundTrip.nop
  | hlt => exact Laws.RoundTrip.hlt
  | jmp target => exact Laws.RoundTrip.jmp target
  | mviA d => exact Laws.RoundTrip.mviA d
  | addB => exact Laws.RoundTrip.addB
  | out p => exact Laws.RoundTrip.out p
  | inp p => exact Laws.RoundTrip.inp p

/-- Bytes that decode begin with the encoding of what they decode to. -/
theorem eq_encode_of_decode {bytes rest : List Byte} {i : Instr} (h : decode bytes = .ok (i, rest)) :
    bytes = encode i ++ rest := by
  cases bytes with
  | nil => cases h
  | cons op tail =>
    obtain ⟨rfl, rfl, rfl⟩ | ⟨rfl, rfl, rfl⟩ | ⟨rfl, lo, hi, rfl, rfl⟩ | ⟨rfl, d, rfl, rfl⟩ | ⟨rfl, rfl, rfl⟩ |
      ⟨rfl, p, rfl, rfl⟩ | ⟨rfl, p, rfl, rfl⟩ := decode_cons_cases h
    · rfl
    · rfl
    · simp [encode, Instr.opcode, Instr.operandBytes]
    · rfl
    · rfl
    · rfl
    · rfl

/-- Settles O50: back by `eq_encode_of_decode`, forth by `decode_encode_append`. -/
theorem decodeEncodeAgree : Obligations.DecodeEncodeAgree := fun _ rest i =>
  ⟨eq_encode_of_decode, fun h => by rw [h, decode_encode_append i rest]⟩

end Sys2Proof
end

section
/-! The opcode byte decides length and support, the example words, and the assembler's spellings (30_encoding.md sections 3, 5 to 7). -/

namespace Sys2Proof

open Machine

/-! ## The opcode byte -/

theorem formOf_of_not_supported {op : Byte} (hop : op ∉ supportedOpcodes) : formOf op = none :=
  (formOf_eq_none_iff op).2 hop

/-- The lengths of R60's table; an unimplemented opcode is one byte. -/
theorem opcodeLength_eq (op : Byte) :
    opcodeLength op = if op = 0x3E ∨ op = 0xD3 ∨ op = 0xDB then 2 else if op = 0xC3 then 3 else 1 := by
  by_cases hop : op ∉ supportedOpcodes
  · rw [opcodeLength, formOf_of_not_supported hop, if_neg (not_two_bytes_of_not_supported hop),
      if_neg (ne_of_not_supported hop (by decide))]
  · obtain rfl | rfl | rfl | rfl | rfl | rfl | rfl := supported_cases (not_not.1 hop) <;> rfl

/-- A supported opcode with two bytes or more behind it makes an instruction. -/
theorem decode_of_supported {op : Byte} (hop : op ∈ supportedOpcodes) (x y : Byte) (rest : List Byte) :
    ∃ i r, decode (op :: x :: y :: rest) = .ok (i, r) ∧ i.opcode = op ∧
      r.length + opcodeLength op = rest.length + 3 := by
  obtain rfl | rfl | rfl | rfl | rfl | rfl | rfl := supported_cases hop <;> exact ⟨_, _, rfl, rfl, rfl⟩

theorem decode_of_not_supported {op : Byte} (hop : op ∉ supportedOpcodes) (tail : List Byte) :
    decode (op :: tail) = .error (.unimplemented op) := by
  rw [decode, formOf_of_not_supported hop]

/-- Settles O51, by the seven opcodes (`supported_cases`) and the rest. -/
theorem opcodeDecidesLengthAndSupport : Obligations.OpcodeDecidesLengthAndSupport :=
  ⟨opcodeLength_eq, fun _ x y rest => ⟨fun hop => decode_of_supported hop x y rest, fun hop => decode_of_not_supported hop _⟩⟩

/-- Settles O52: each word is decoded by evaluation; 0x3F is outside the seven. -/
theorem specWordsDecode : Obligations.SpecWordsDecode :=
  ⟨rfl, rfl, rfl, rfl, rfl, rfl, rfl, decode_of_not_supported (by decide) _⟩

/-! ## The spellings -/

theorem lowByte_ofNat (n : Nat) : lowByte (BitVec.ofNat 16 n) = BitVec.ofNat 8 (n % 256) := by
  apply BitVec.eq_of_toNat_eq
  rw [toNat_lowByte, BitVec.toNat_ofNat, BitVec.toNat_ofNat]
  omega

theorem highByte_ofNat {n : Nat} (hn : n < 65536) : highByte (BitVec.ofNat 16 n) = BitVec.ofNat 8 (n / 256) := by
  apply BitVec.eq_of_toNat_eq
  rw [toNat_highByte, BitVec.toNat_ofNat, BitVec.toNat_ofNat]
  omega

namespace AsmStmt

/-- A line that names an instruction assembles to its bytes. -/
theorem bytes?_of_instr? {x : AsmStmt} {i : Instr} (h : x.instr? = some i) : x.bytes? = some (encode i) := by
  cases x with
  | org a => cases h
  | db bs => cases h
  | _ => exact congrArg (Option.map encode) h

theorem bytes?_jmp {n : Nat} (hn : n < 65536) :
    bytes? (.jmp n) = some [0xC3, BitVec.ofNat 8 (n % 256), BitVec.ofNat 8 (n / 256)] := by
  rw [bytes?_of_instr? (x := .jmp n) (if_pos hn), encode, Instr.operandBytes, lowByte_ofNat, highByte_ofNat hn]
  rfl

theorem bytes?_mvi_A {n : Nat} (hn : n < 256) : bytes? (.mvi .A n) = some [0x3E, BitVec.ofNat 8 n] :=
  bytes?_of_instr? (x := .mvi .A n) (if_pos hn)

theorem bytes?_out {n : Nat} (hn : n < 256) : bytes? (.out n) = some [0xD3, BitVec.ofNat 8 n] :=
  bytes?_of_instr? (x := .out n) (if_pos hn)

theorem bytes?_inp {n : Nat} (hn : n < 256) : bytes? (.inp n) = some [0xDB, BitVec.ofNat 8 n] :=
  bytes?_of_instr? (x := .inp n) (if_pos hn)

theorem bytes?_mvi_of_ne {r : Reg} (hr : r ≠ .A) (n : Nat) : bytes? (.mvi r n) = none := by
  cases r with
  | A => exact absurd rfl hr
  | _ => rfl

theorem bytes?_add_of_ne {r : Reg} (hr : r ≠ .B) : bytes? (.add r) = none := by
  cases r with
  | B => exact absurd rfl hr
  | _ => rfl

/-- A line is well formed exactly when it assembles: each check of R64 is the condition its bytes stand under. -/
theorem wellFormed_iff_isSome (x : AsmStmt) : x.wellFormed = true ↔ x.bytes?.isSome = true := by
  cases x with
  | nop => simp [wellFormed, bytes?, instr?]
  | hlt => simp [wellFormed, bytes?, instr?]
  | jmp t => simp [wellFormed, bytes?, instr?]
  | mvi r d => cases r <;> simp [wellFormed, bytes?, instr?]
  | add r => cases r <;> simp [wellFormed, bytes?, instr?]
  | out p => simp [wellFormed, bytes?, instr?]
  | inp p => simp [wellFormed, bytes?, instr?]
  | org a => simp [wellFormed, bytes?]
  | db bs => simp [wellFormed, bytes?]

end AsmStmt

/-- Settles O53: one lemma per spelling with an operand; the others assemble by evaluation. -/
theorem assemblerSpellings : Obligations.AssemblerSpellings :=
  ⟨rfl, rfl, fun _ => AsmStmt.bytes?_jmp, fun _ => AsmStmt.bytes?_mvi_A, rfl, fun _ => AsmStmt.bytes?_out,
    fun _ => AsmStmt.bytes?_inp, fun _ n hr => AsmStmt.bytes?_mvi_of_ne hr n, fun _ => AsmStmt.bytes?_add_of_ne,
    AsmStmt.wellFormed_iff_isSome⟩

end Sys2Proof
end

section
/-! Memory as the host sees it: canonical memories are equal when they read alike, what a load places, and an instruction placed at the
pc (20_memory.md sections 1 and 2; 70_reset_and_hazards.md section 2). -/

namespace Sys2Proof.Machine

/-! ## Canonical memories that read alike -/

namespace Memory

/-- The first listed byte is the one a lookup at its key finds. -/
theorem lookup_cons_self (a : Nat) (v : Byte) (m : Memory) : lookup ((a, v) :: m) a = v := if_pos rfl

theorem lookup_cons_of_ne {a k : Nat} (h : a ≠ k) (v : Byte) (m : Memory) : lookup ((a, v) :: m) k = lookup m k := if_neg h

/-- A list in canonical form whose first entry lies below another's start differs from it at that entry. -/
theorem lookup_cons_ne_lookup {lo a : Nat} {v : Byte} {m m' : Memory} (hv : v ≠ unlisted) (ha : a < lo)
    (hm' : wfFrom lo m' = true) : lookup ((a, v) :: m) a ≠ lookup m' a := by
  rw [lookup_cons_self, lookup_below ha hm']
  exact hv

/-- Lists in canonical form with the same lookups are equal: their first entries are, by the lookups there, and so on down the list. -/
theorem eq_of_lookup_eq {lo : Nat} {m m' : Memory} (hm : wfFrom lo m = true) (hm' : wfFrom lo m' = true)
    (h : ∀ k < 65536, lookup m k = lookup m' k) : m = m' := by
  induction m generalizing lo m' with
  | nil =>
    cases m' with
    | nil => rfl
    | cons c' m' =>
      obtain ⟨a', v'⟩ := c'
      obtain ⟨-, ha', hv', -⟩ := (wfFrom_cons ..).1 hm'
      exact absurd (h a' ha').symm (lookup_cons_ne_lookup hv' (Nat.lt_succ_self a') (wfFrom_nil _))
  | cons c m ih =>
    obtain ⟨a, v⟩ := c
    obtain ⟨-, ha, hv, htail⟩ := (wfFrom_cons ..).1 hm
    cases m' with
    | nil => exact absurd (h a ha) (lookup_cons_ne_lookup hv (Nat.lt_succ_self a) (wfFrom_nil _))
    | cons c' m' =>
      obtain ⟨a', v'⟩ := c'
      obtain ⟨hlo', ha', hv', htail'⟩ := (wfFrom_cons ..).1 hm'
      obtain hlt | rfl | hgt := lt_trichotomy a a'
      · have hwf : wfFrom a' ((a', v') :: m') = true := (wfFrom_cons ..).2 ⟨le_rfl, ha', hv', htail'⟩
        exact absurd (h a ha) (lookup_cons_ne_lookup hv hlt hwf)
      · have hvalue : v = v' := by simpa only [lookup_cons_self] using h a ha
        have hrest : m = m' := ih htail htail' fun k hk => by
          by_cases hak : a = k
          · subst hak
            rw [lookup_below (Nat.lt_succ_self a) htail, lookup_below (Nat.lt_succ_self a) htail']
          · simpa only [lookup_cons_of_ne hak] using h k hk
        rw [hvalue, hrest]
      · have hwf : wfFrom a ((a, v) :: m) = true := (wfFrom_cons ..).2 ⟨le_rfl, ha, hv, htail⟩
        exact absurd (h a' ha').symm (lookup_cons_ne_lookup hv' hgt hwf)

theorem read_of_lt (m : Memory) {a : Nat} (ha : a < 65536) : read m a = lookup m a := by
  rw [read, Nat.mod_eq_of_lt ha]

end Memory

/-- Settles O42: below 65536 a read is a lookup, and `Memory.eq_of_lookup_eq` is the induction. -/
theorem memoriesThatReadAlikeAreEqual : Obligations.MemoriesThatReadAlikeAreEqual := fun m m' hm hm' h =>
  Memory.eq_of_lookup_eq hm hm' fun k hk => by simpa only [Memory.read_of_lt _ hk] using h k hk

/-! ## A load places every byte -/

/-- After a load the address of byte `k` reads that byte where no later byte of the load falls (20_memory.md R41, D14; log 3). -/
theorem Memory.read_load_last {m : Memory} (hm : m.wf = true) (base : Nat) (bs : List Nat) (k : Nat) (hk : k < bs.length)
    (hlast : ∀ j, k < j → j < bs.length → (base + j) % 65536 ≠ (base + k) % 65536) :
    read (load m base bs) (base + k) = BitVec.ofNat 8 bs[k] := by
  induction bs generalizing m base k with
  | nil => exact absurd hk (Nat.not_lt_zero k)
  | cons b bs ih =>
    have hm' := write_wf hm base b
    cases k with
    | zero =>
      have hfree : ∀ j < bs.length, (base + 0) % 65536 ≠ (base + 1 + j) % 65536 := fun j hj e =>
        hlast (j + 1) (Nat.succ_pos j) (Nat.succ_lt_succ hj) (by rw [e, Nat.add_right_comm]; rfl)
      rw [load, read_load_other hm' _ _ _ hfree, read_write hm]
      exact if_pos rfl
    | succ k =>
      have hshift (j : Nat) : base + (j + 1) = base + 1 + j := by omega
      rw [hshift k, load, List.getElem_cons_succ]
      refine ih hm' (base + 1) k (Nat.lt_of_succ_lt_succ hk) fun j hkj hj => ?_
      have := hlast (j + 1) (Nat.succ_lt_succ hkj) (Nat.succ_lt_succ hj)
      rwa [hshift j, hshift k] at this

/-- A value counts modulo 256 (20_memory.md R36). -/
theorem byte_ofNat_mod (v : Nat) : BitVec.ofNat 8 (v % 256) = BitVec.ofNat 8 v := BitVec.eq_of_toNat_eq (by simp)

/-- Settles O41: the last byte on an address by `Memory.read_load_last`, an address without one by `Memory.read_load_other`. -/
theorem loadProgramPlacesEveryByte : Obligations.LoadProgramPlacesEveryByte := by
  intro s base bytes hm
  refine ⟨fun k hk hlast => ?_, fun a hfree => Memory.read_load_other hm base bytes a hfree, rfl⟩
  rw [byte_ofNat_mod]
  exact Memory.read_load_last hm base bytes k hk hlast

/-! ## An instruction placed at the pc -/

/-- Bytes loaded at an address are read back from there. -/
theorem Memory.readRun_load {m : Memory} (hm : m.wf = true) (a : Addr) (bs more : List Byte) (hn : (bs ++ more).length ≤ 65536) :
    readRun (load m a.toNat ((bs ++ more).map BitVec.toNat)) a bs.length = bs := by
  refine List.ext_getElem (by simp) fun k hk hk' => ?_
  have hlen : k < ((bs ++ more).map BitVec.toNat).length := by simp; omega
  rw [getElem_readRun, read_load_at hm _ _ (by simpa using hn) k hlen, List.getElem_map, List.getElem_append_left hk',
    BitVec.ofNat_toNat, BitVec.setWidth_eq]

theorem step_of_readRun {s : State} {i : Instr} (hrun : s.status.halted = false)
    (hbytes : Memory.readRun s.mem s.pc (encode i).length = encode i) : step s = finishStep (exec i s.fetchOpcode) := by
  refine step_of_decode hrun (r := []) ?_
  rw [instrBytes_of_readRun s hbytes, ← List.append_nil (encode i), decode_encode_append i []]

/-- Settles O14: the bytes at the pc decode to `i`, and `finishStep` is the draw. -/
theorem stepRunsTheDecodedInstruction : Obligations.StepRunsTheDecodedInstruction := by
  intro s t i hrun hbytes hexec
  have hfetched : exec i s.fetchOpcode = .next t := hexec
  rw [step_of_readRun hrun hbytes, hfetched]
  rfl

theorem exec_total (i : Instr) (s : State) : ∃ t, exec i s = .next t := by
  cases i <;> exact ⟨_, rfl⟩

theorem decodeTableWord_encode (i : Instr) :
    decodeTableWord (8 * (encode i).length) (packBytes (encode i)) = some i := by
  rw [decodeTableWord, tableBytes_encode, decode_encode_append i]

/-- Settles O43: the placed word is the encoding and then zeros, so the encoding stands at the pc and is what the step runs. -/
theorem placedInstructionRunsNext : Obligations.PlacedInstructionRunsNext := by
  intro i s hm
  have hthree : (encode i ++ List.replicate (3 - (encode i).length) 0).length = 3 := by cases i <;> rfl
  have hbytes := Memory.readRun_load hm s.pc (encode i) (List.replicate (3 - (encode i).length) 0)
    (hthree.trans_le (by decide))
  rw [← tableBytes_encode] at hbytes
  obtain ⟨t, ht⟩ := exec_total i (s.withFetchWord (8 * (encode i).length) (packBytes (encode i))).fetchOpcode
  refine ⟨decodeTableWord_encode i, t, ht, ?_⟩
  rw [step_of_readRun rfl hbytes, ht]
  rfl

end Sys2Proof.Machine
end

section
/-! The operations alone: what each answers, and its frame (40_control.md, 41_data_transfer.md, 42_arithmetic.md, 43_io.md). -/

namespace Sys2Proof.Machine

/-! ## NOP, HLT, JMP, MVI A: the meaning is the stated update -/

/-- Settles O1: NOP's meaning, field by field. -/
theorem execNopOnlyReturnsOne : Obligations.ExecNopOnlyReturnsOne := fun _ => rfl

/-- Settles O2: HLT's meaning, field by field. -/
theorem execHltSetsHalted : Obligations.ExecHltSetsHalted := fun _ => rfl

/-- Settles O3: JMP's meaning; the target overwrites the pc that passed the operand bytes. -/
theorem execJmpSetsPc : Obligations.ExecJmpSetsPc := fun _ _ => rfl

/-- Settles O4: MVI A's meaning, field by field. -/
theorem execMviALoadsImmediate : Obligations.ExecMviALoadsImmediate := fun _ _ => rfl

/-! ## ADD B: parity as an exclusive or -/

/-- A count is even exactly when the exclusive or of the counted bits is 0. -/
theorem even_countP_eq_not_xor {α : Type} (p : α → Bool) (l : List α) :
    decide (l.countP p % 2 = 0) = !(l.foldr (fun x b => p x ^^ b) false) := by
  induction l with
  | nil => rfl
  | cons x l ih =>
    rw [List.foldr_cons, List.countP_cons]
    cases hx : p x with
    | false => simpa using ih
    | true =>
      have hflip : decide ((l.countP p + 1) % 2 = 0) = !decide (l.countP p % 2 = 0) := by
        rw [← decide_not, decide_eq_decide]
        omega
      simp [hflip, ih]

/-- The parity of a byte: the complement of the exclusive or of its eight bits (42_arithmetic.md R75). -/
theorem even_popcount_eq_not_xor (v : Byte) :
    decide (popcount v % 2 = 0) =
      !(v.getLsbD 0 ^^ v.getLsbD 1 ^^ v.getLsbD 2 ^^ v.getLsbD 3 ^^ v.getLsbD 4 ^^ v.getLsbD 5 ^^ v.getLsbD 6 ^^
        v.getLsbD 7) := by
  rw [popcount, even_countP_eq_not_xor]
  simp [List.range, List.range.loop]

/-- Settles O5: the wrapped sum by `ofNat_sumAB`; Z, S and CY are `flagsOf`'s own, P by `even_popcount_eq_not_xor`. -/
theorem execAddBAddsAndSetsFlags : Obligations.ExecAddBAddsAndSetsFlags := by
  intro s r
  have hr : BitVec.ofNat 8 s.sumAB = r := ofNat_sumAB s
  change Host.Outcome.next (((s.setA (BitVec.ofNat 8 s.sumAB)).setFlags (flagsOf s.sumAB)).returns 1) = _
  rw [hr, flagsOf, hr, even_popcount_eq_not_xor, BitVec.msb_eq_getLsbD_last]
  rfl

/-! ## OUT and IN -/

/-- Settles O9: OUT's port space is PortOut's, whose three clauses are `portOutAppendsOrDoesNothing`. -/
theorem execOutAppendsToWiredSink : Obligations.ExecOutAppendsToWiredSink := fun p s =>
  ⟨s.ports.portOut p s.regs.a, rfl, portOutAppendsOrDoesNothing s.ports p s.regs.a⟩

/-- The byte `v` and the ports `ps'` are what PortIn of port `p` gives from `ps`: for a nonempty FIFO, an empty one, at the other
ports, and for an unwired port (20_memory.md R46, R48, D11; log 10). -/
def IsPortIn (ps : Ports) (p v : Byte) (ps' : Ports) : Prop :=
  (∀ q w rest, Ports.find ps p = some q → q.fifo = w :: rest → v = w ∧ Ports.find ps' p = some { q with fifo := rest }) ∧
  (∀ q, Ports.find ps p = some q → q.fifo = [] → v = 0x00 ∧ Ports.find ps' p = some q) ∧
  (∀ p', p' ≠ p → Ports.find ps' p' = Ports.find ps p') ∧
  (Ports.find ps p = none → v = 0x00 ∧ ps' = ps)

/-- PortIn's two halves together, a wired port by `portInPopsTheOldestByte`. -/
theorem isPortIn_portIn (ps : Ports) (p : Byte) : IsPortIn ps p (ps.portInByte p) (ps.portInRest p) := by
  refine ⟨fun q w rest hq hfifo => ?_, fun q hq hfifo => ?_, fun _ hp => Ports.find_portInRest_other ps hp, fun hnone => ?_⟩
  · obtain ⟨-, hcons, -⟩ := portInPopsTheOldestByte ps p q hq
    exact hcons w rest hfifo
  · obtain ⟨hnil, -⟩ := portInPopsTheOldestByte ps p q hq
    exact hnil hfifo
  · exact ⟨Ports.portInByte_unwired hnone, Ports.modify_unwired ps p _ hnone⟩

/-- Settles O10: IN's byte and port space are PortIn's (`isPortIn_portIn`). -/
theorem execInpPopsOldestByte : Obligations.ExecInpPopsOldestByte := fun p s =>
  ⟨s.ports.portInByte p, s.ports.portInRest p, rfl, isPortIn_portIn s.ports p⟩

/-! ## Frames -/

/-- Settles O11: the five updates one by one; an excluded instruction contradicts its own exclusion. -/
theorem frameOfOperationsWithoutPorts : Obligations.FrameOfOperationsWithoutPorts := by
  intro i s t hi h
  obtain rfl | rfl | ⟨a, rfl⟩ | ⟨d, rfl⟩ | rfl := hi <;> cases h
  all_goals refine ⟨⟨rfl, rfl, rfl, rfl, rfl⟩, ?_, rfl, ?_, ?_, rfl, fun _ => rfl, rfl, rfl, rfl⟩
  all_goals simp

theorem Ports.portOut_fifos (ps : Ports) (p v : Byte) :
    (ps.portOut p v).map (fun q => (q.num, q.fifo)) = ps.map (fun q => (q.num, q.fifo)) := by
  rw [Ports.portOut, Ports.modify, List.map_map]
  exact List.map_congr_left fun q _ => by simp only [Function.comp_apply]; split <;> rfl

theorem Ports.portInRest_sinks (ps : Ports) (p : Byte) :
    (ps.portInRest p).map (fun q => (q.num, q.sink)) = ps.map (fun q => (q.num, q.sink)) := by
  rw [Ports.portInRest, Ports.modify, List.map_map]
  exact List.map_congr_left fun q _ => by simp only [Function.comp_apply]; split <;> rfl

/-- Settles O12: PortOut leaves every FIFO and PortIn every sink, each of them the other ports. -/
theorem frameOfPortOperations : Obligations.FrameOfPortOperations := by
  refine fun p s t => ⟨fun h => ?_, fun h => ?_⟩ <;> cases h
  · exact ⟨rfl, rfl, rfl, rfl, fun _ => rfl, Ports.portOut_fifos _ _ _, fun _ hp => Ports.find_portOut_other _ hp _, rfl, rfl⟩
  · exact ⟨rfl, rfl, rfl, rfl, fun _ => rfl, Ports.portInRest_sinks _ _, fun _ hp => Ports.find_portInRest_other _ hp, rfl, rfl⟩

end Sys2Proof.Machine
end

section
/-! Whole steps, one statement per instruction, the fail-stop, and what holds of the pc and of completion (30_encoding.md section 4;
60_exceptions.md section 1). -/

namespace Sys2Proof.Machine

/-- Settles O13: `step_halted`, whose `haltedNoOp` is the stated update. -/
theorem haltedStepDoesNothing : Obligations.HaltedStepDoesNothing := fun _ hhalted => step_halted hhalted

/-- Settles O15: `step_nop`, field by field. -/
theorem stepNop : Obligations.StepNop := fun _ hrun hop => step_nop hrun hop

/-- Settles O18: `step_mviA`, with the pc two further. -/
theorem stepMviA : Obligations.StepMviA := by
  intro s hrun hop
  rw [step_mviA hrun hop, ← addr_add_one_add_one]
  rfl

/-- Settles O19: `step_addB`; the four flags of the sum by the lemmas of `flagsOf`. -/
theorem stepAddB : Obligations.StepAddB := by
  intro s hrun hop
  have hr : (BitVec.ofNat 8 s.sumAB).toNat = s.sumAB % 256 := BitVec.toNat_ofNat ..
  refine ⟨s.sumAB, BitVec.ofNat 8 s.sumAB, flagsOf s.sumAB, rfl, hr, ?_, ?_, ?_, flagsOf_cy_iff _, step_addB hrun hop⟩
  · rw [hr, flagsOf_z_iff]
  · rw [hr, flagsOf_s_iff]
  · rw [hr, flagsOf_p_iff]

/-- Settles O20: `step_out`; PortOut's clauses are `portOutAppendsOrDoesNothing`. -/
theorem stepOut : Obligations.StepOut := by
  intro s hrun hop
  refine ⟨s.operandByte, s.ports.portOut s.operandByte s.regs.a, rfl, ?_,
    portOutAppendsOrDoesNothing s.ports s.operandByte s.regs.a⟩
  rw [step_out hrun hop, ← addr_add_one_add_one]
  rfl

/-- Settles O21: `step_inp`; PortIn's clauses are `isPortIn_portIn`. -/
theorem stepIn : Obligations.StepIn := by
  intro s hrun hop
  refine ⟨s.operandByte, s.ports.portInByte s.operandByte, s.ports.portInRest s.operandByte, rfl, ?_,
    isPortIn_portIn s.ports s.operandByte⟩
  rw [step_inp hrun hop, ← addr_add_one_add_one]
  rfl

/-- Settles O22: `step_failStop`, field by field. -/
theorem stepUnimplementedFailStops : Obligations.StepUnimplementedFailStops := fun _ hrun hop => step_failStop hrun hop

/-! ## Completion -/

theorem hostAct_total (a : HostAction) (s : State) : ∃ t, hostAct a s = .next t := by
  cases a with
  | step =>
    obtain ⟨t, ht, -⟩ := step_total s
    exact ⟨t, ht⟩
  | _ => exact ⟨_, rfl⟩

theorem hostRun_total (acts : List HostAction) (s : State) : ∃ t, hostRun acts s = .next t := by
  induction acts generalizing s with
  | nil => exact ⟨s, rfl⟩
  | cons a acts ih =>
    obtain ⟨u, hu⟩ := hostAct_total a s
    obtain ⟨t, ht⟩ := ih u
    exact ⟨t, hostRun_cons.2 ⟨u, hu, ht⟩⟩

/-- Settles O23: operations, steps and runs each answer a next state; a step is the host's action `step`. -/
theorem everythingCompletes : Obligations.EverythingCompletes := ⟨exec_total, hostAct_total .step, hostRun_total⟩

/-! ## The pc -/

/-- JMP's target as R69 writes it. -/
theorem State.operandAddr_eq (s : State) :
    s.operandAddr = BitVec.ofNat 16 ((s.mem.read (s.pc.toNat + 2)).toNat * 256 + (s.mem.read (s.pc.toNat + 1)).toNat) := by
  rw [← s.toNat_operandAddr, BitVec.ofNat_toNat, BitVec.setWidth_eq]

/-- The pc after a step (10_state.md section 2). -/
theorem step_pc {s t : State} (h : step s = .next t) :
    t.pc =
      if s.status.halted = true then s.pc
      else if s.opcodeAt = 0xC3 then s.operandAddr
      else if s.opcodeAt = 0x3E ∨ s.opcodeAt = 0xD3 ∨ s.opcodeAt = 0xDB then s.pc + 2
      else s.pc + 1 := by
  cases stepWay_of_step h with
  | halted hhalted => rw [if_pos hhalted]; rfl
  | jmp hrun hop => simp only [hrun, hop]; rfl
  | mviA hrun hop => simp only [hrun, hop]; exact addr_add_one_add_one s.pc
  | out hrun hop => simp only [hrun, hop]; exact addr_add_one_add_one s.pc
  | inp hrun hop => simp only [hrun, hop]; exact addr_add_one_add_one s.pc
  | failStop hrun hop =>
    rw [if_neg (by simp [hrun]), if_neg (ne_of_not_supported hop (by decide)), if_neg (not_two_bytes_of_not_supported hop)]
    rfl
  | _ hrun hop => simp only [hrun, hop]; rfl

/-- Settles O24: `step_pc`, with the target written as in R69; a reset clears the pc. -/
theorem pcAfterEveryStep : Obligations.PcAfterEveryStep := by
  intro s t h
  refine ⟨?_, fun _ => rfl⟩
  rw [← s.operandAddr_eq]
  exact step_pc h

end Sys2Proof.Machine
end

section
/-! What the engine's steps and the host's actions leave: the flags, the general registers, the log; where a run halts, and what a halted
engine keeps (10_state.md sections 1, 3, 4; 60_exceptions.md sections 1, 3, 5; 70_reset_and_hazards.md section 4). -/

namespace Sys2Proof.Machine

/-! ## The flags -/

/-- No operation but ADD B touches the flags, and none reads them. -/
theorem exec_of_flags {i : Instr} {s t : State} (hi : i ≠ .addB) (h : exec i s = .next t) (f : Flags) :
    exec i { s with flags := f } = .next { t with flags := f } := by
  cases i with
  | addB => exact absurd rfl hi
  | _ => cases h; rfl

section
variable {s t : State} (h : step s = .next t)
include h

theorem step_flags_of_ne (hno : s.status.halted = true ∨ s.opcodeAt ≠ 0x80) : t.flags = s.flags := by
  cases stepWay_of_step h with
  | addB hrun hop => simp [hrun, hop] at hno
  | _ => rfl

/-- A step that is no ADD B carries any flags along. -/
theorem step_of_flags (hno : s.status.halted = true ∨ s.opcodeAt ≠ 0x80) (f : Flags) :
    step { s with flags := f } = .next { t with flags := f } := by
  have hne : ∀ i : Instr, s.status.halted = false → i.opcode = s.opcodeAt → i ≠ .addB := by
    rintro _ hrun hi rfl
    simp [hrun, ← hi, Instr.opcode] at hno
  obtain ⟨_, hstep, rfl⟩ := step_transfer (s := s) (s' := { s with flags := f }) (Q := fun t t' => t' = { t with flags := f })
    rfl rfl rfl rfl (fun i _ hrun hi hu => ⟨_, exec_of_flags (hne i hrun hi) hu f, rfl⟩) rfl h
  exact hstep

/-- A step of ADD B overwrites the flags, whatever they were. -/
theorem step_addB_flags (hrun : s.status.halted = false) (hop : s.opcodeAt = 0x80) :
    t.flags = flagsOf s.sumAB ∧ ∀ f : Flags, step { s with flags := f } = .next t := by
  obtain rfl := Host.Outcome.next.inj ((step_addB hrun hop).symm.trans h)
  exact ⟨rfl, fun f => step_addB (s := { s with flags := f }) hrun hop⟩

end

/-- Settles O28: a step that is no ADD B, one that is, the reset, and the actions that reach memory or the ports alone. -/
theorem flagsAreWrittenByAddBAlone : Obligations.FlagsAreWrittenByAddBAlone := by
  intro s t h
  refine ⟨fun hno => ⟨step_flags_of_ne h hno, step_of_flags h hno⟩, step_addB_flags h, fun _ => rfl, fun a u hreset hstep hu => ?_⟩
  exact congrArg Display.flags (hostAct_outside_frame hstep hreset hu).1

/-! ## The general registers, SP and `inte` -/

/-- A step writes A alone of the byte registers, and never SP. -/
theorem step_general_registers {s t : State} (h : step s = .next t) :
    t.regs.b = s.regs.b ∧ t.regs.c = s.regs.c ∧ t.regs.d = s.regs.d ∧ t.regs.e = s.regs.e ∧ t.regs.h = s.regs.h ∧
      t.sp = s.sp ∧ t.status.inte = s.status.inte := by
  cases stepWay_of_step h <;> exact ⟨rfl, rfl, rfl, rfl, rfl, rfl, rfl⟩

/-- Settles O29: a step by `step_general_registers`, the actions outside by what they can replace, and the reset's own values. -/
theorem onlyResetWritesGeneralRegisters : Obligations.OnlyResetWritesGeneralRegisters := by
  intro a s t h
  refine ⟨fun hreset => ?_, fun r hr => ?_⟩
  · by_cases hstep : a = .step
    · subst hstep
      exact step_general_registers h
    · obtain ⟨_, rfl⟩ | ⟨_, rfl⟩ := hostAct_outside_cases hstep hreset h
      all_goals exact ⟨rfl, rfl, rfl, rfl, rfl, rfl, rfl⟩
  · subst hr
    cases h
    exact ⟨rfl, rfl, rfl⟩

/-! ## The log -/

/-- A running step over a byte outside the seven: the one event that reports (60_exceptions.md R81). -/
def State.FailStops (s : State) : Prop := s.status.halted = false ∧ s.opcodeAt ∉ supportedOpcodes

theorem step_log_of_failStops {s t : State} (h : step s = .next t) (hs : s.FailStops) :
    t.log = s.log ++ [{ opcode := s.opcodeAt, address := s.pc }] := by
  obtain rfl := Host.Outcome.next.inj ((step_failStop hs.1 hs.2).symm.trans h)
  rfl

theorem step_log_of_not_failStops {s t : State} (h : step s = .next t) (hs : ¬ s.FailStops) : t.log = s.log := by
  cases stepWay_of_step h with
  | failStop hrun hop => exact absurd ⟨hrun, hop⟩ hs
  | _ => rfl

/-- No other action of the host than a step reports. -/
theorem hostAct_log_of_ne_step {a : HostAction} {s t : State} (hstep : a ≠ .step) (h : hostAct a s = .next t) :
    t.log = s.log := by
  cases a with
  | step => exact absurd rfl hstep
  | _ => cases h; rfl

/-- Settles O33: the three lemmas above, one for each way the condition can turn out. -/
theorem reportsComeFromUnimplementedOpcodes : Obligations.ReportsComeFromUnimplementedOpcodes := by
  intro a s t h
  by_cases hstep : a = .step
  · subst hstep
    by_cases hs : s.FailStops
    · rw [if_pos ⟨rfl, hs⟩]
      exact step_log_of_failStops h hs
    · rw [if_neg fun hc => hs hc.2]
      exact step_log_of_not_failStops h hs
  · rw [if_neg fun hc => hstep hc.1]
    exact hostAct_log_of_ne_step hstep h

/-! ## Where a run halts -/

theorem step_log_eq_iff {s t : State} (h : step s = .next t) : t.log = s.log ↔ ¬ s.FailStops := by
  refine ⟨fun hlog hs => ?_, step_log_of_not_failStops h⟩
  rw [step_log_of_failStops h hs] at hlog
  simp at hlog

theorem haltsAt_iff {s t : State} (h : step s = .next t) :
    HaltsAt s t ↔ s.status.halted = false ∧ (s.opcodeAt = 0x76 ∨ s.opcodeAt ∉ supportedOpcodes) :=
  ⟨fun ⟨_, hrun, hhalts⟩ => ⟨hrun, (step_halts_iff h hrun).1 hhalts⟩,
    fun ⟨hrun, hop⟩ => ⟨h, hrun, (step_halts_iff h hrun).2 hop⟩⟩

theorem deliberatelyHaltsAt_iff {s t : State} (h : step s = .next t) :
    DeliberatelyHaltsAt s t ↔ s.status.halted = false ∧ s.opcodeAt = 0x76 := by
  rw [DeliberatelyHaltsAt, haltsAt_iff h, step_log_eq_iff h, State.FailStops]
  refine ⟨fun ⟨⟨hrun, hop⟩, hno⟩ => ⟨hrun, hop.resolve_right fun hout => hno ⟨hrun, hout⟩⟩, fun ⟨hrun, hop⟩ => ?_⟩
  exact ⟨⟨hrun, .inl hop⟩, fun hs => hs.2 (by rw [hop]; decide)⟩

theorem failStopsAt_iff {s t : State} (h : step s = .next t) : FailStopsAt s t ↔ s.FailStops := by
  rw [FailStopsAt, haltsAt_iff h, ne_eq, step_log_eq_iff h, not_not]
  exact ⟨And.right, fun hs => ⟨⟨hs.1, .inr hs.2⟩, hs⟩⟩

/-- Settles O34: the log either stays or does not, and `deliberatelyHaltsAt_iff` and `failStopsAt_iff` name the bytes. -/
theorem haltsAreHltOrFailStop : Obligations.HaltsAreHltOrFailStop := by
  intro s t h
  refine ⟨⟨fun hhalts => ?_, fun hor => hor.elim And.left And.left⟩, deliberatelyHaltsAt_iff h, failStopsAt_iff h⟩
  by_cases hlog : t.log = s.log
  · exact .inl ⟨hhalts, hlog⟩
  · exact .inr ⟨hhalts, hlog⟩

/-! ## A halted engine -/

/-- A property that each action of a run keeps holds at its end. -/
theorem hostRun_keeps_of_mem {P : State → Prop} {acts : List HostAction} {s t : State}
    (hP : ∀ a ∈ acts, ∀ s t, hostAct a s = .next t → P s → P t) (h : hostRun acts s = .next t) (hs : P s) : P t := by
  induction acts generalizing s with
  | nil => exact Host.Outcome.next.inj h ▸ hs
  | cons a acts ih =>
    obtain ⟨u, hu, ht⟩ := hostRun_cons.1 h
    exact ih (fun b hb => hP b (List.mem_cons_of_mem a hb)) ht (hP a List.mem_cons_self s u hu hs)

/-- The same display and the same log as `s`. -/
def State.LooksLike (s t : State) : Prop := t.hostDisplay = s.hostDisplay ∧ t.log = s.log

theorem State.LooksLike.halted {s t : State} (h : s.LooksLike t) : t.status.halted = s.status.halted :=
  congrArg (fun d => d.status.halted) h.1

theorem hostAct_looksLike_of_halted {a : HostAction} {s t : State} (hreset : a.isReset = false)
    (hhalted : s.status.halted = true) (h : hostAct a s = .next t) : s.LooksLike t := by
  refine ⟨hostAct_of_halted hreset hhalted h, ?_⟩
  by_cases hstep : a = .step
  · subst hstep
    exact step_log_of_not_failStops h fun hs => Bool.false_ne_true (hs.1.symm.trans hhalted)
  · exact hostAct_log_of_ne_step hstep h

/-- A halted engine looks the same after any run without a reset (60_exceptions.md R87, R94; D25, log 14). -/
theorem hostRun_looksLike_of_halted {acts : List HostAction} {s t : State} (hhalted : s.status.halted = true)
    (hacts : ∀ a ∈ acts, a.isReset = false) (h : hostRun acts s = .next t) : s.LooksLike t := by
  refine hostRun_keeps_of_mem (P := s.LooksLike) (fun a ha u v hact hu => ?_) h ⟨rfl, rfl⟩
  obtain ⟨hdisplay, hlog⟩ := hostAct_looksLike_of_halted (hacts a ha) (hu.halted.trans hhalted) hact
  exact ⟨hdisplay.trans hu.1, hlog.trans hu.2⟩

/-- Settles O35: the run keeps display and log, so the engine is still halted and its next step does nothing. -/
theorem haltedStateKeepsEverythingUntilReset : Obligations.HaltedStateKeepsEverythingUntilReset := by
  intro s hhalted
  refine ⟨fun acts t hacts h => ?_, fun _ => rfl⟩
  have hlooks := hostRun_looksLike_of_halted hhalted hacts h
  exact ⟨hlooks.1, hlooks.2, step_halted (hlooks.halted.trans hhalted)⟩

/-- Steps of a halted engine: the first returns 0, and the rest repeat it. -/
theorem core_run_halted {s : State} (hhalted : s.status.halted = true) (n : Nat) :
    Sys2Proof.core.run (n + 1) s = .next s.haltedNoOp := by
  rw [core_run_succ n (step_halted hhalted)]
  induction n with
  | zero => rfl
  | succ n ih => rw [core_run_succ n (step_halted (s := s.haltedNoOp) hhalted)]; exact ih

/-- Settles O16: the step is `step_hlt`; later steps by `core_run_halted`, later host actions by `hostRun_looksLike_of_halted`. -/
theorem stepHltHaltsUntilReset : Obligations.StepHltHaltsUntilReset := by
  intro s hrun hop
  refine ⟨_, step_hlt hrun hop, rfl, core_run_halted rfl, fun acts u hacts h => ?_⟩
  have hlooks := hostRun_looksLike_of_halted rfl hacts h
  exact ⟨step_halted hlooks.halted, congrArg Display.pc hlooks.1⟩

end Sys2Proof.Machine
end

section
/-! Reset (70_reset_and_hazards.md sections 1 and 2): the values it sets, and what it leaves. -/

namespace Sys2Proof.Machine

/-- Settles O44: the fields of the reset, one by one, and the memory of a new machine. -/
theorem resetSetsEngineStateOnly : Obligations.ResetSetsEngineStateOnly :=
  ⟨fun _ _ => ⟨rfl, rfl, rfl, rfl, rfl, rfl, rfl, rfl, rfl, rfl, rfl, rfl, rfl, rfl⟩, fun _ _ _ => rfl⟩

/-- Settles O45: the spec's values in the reset state; the host's core starts from it by definition. -/
theorem resetStateHoldsTheSpecsValues : Obligations.ResetStateHoldsTheSpecsValues :=
  ⟨rfl, rfl, rfl, rfl, rfl, rfl⟩

/-- Settles O46: a load replaces memory alone and a reset leaves it, so the two updates are of different fields. -/
theorem loadAndResetCommute : Obligations.LoadAndResetCommute := fun _ _ _ _ => rfl

end Sys2Proof.Machine
end
